-- ==== Sys2Proof/Word.lean ====
section
/-! DEFINITION. The word types of KECCAK256-CORE (spec/00_scope.md R6, R7): bytes of the message stream,
64-bit lanes, which are also the width of the data ports DIN and DOUT. -/

namespace Sys2Proof

/-- One message byte; bit 0 is the least significant (R7). -/
abbrev Byte := BitVec 8

/-- One 64-bit lane, an unsigned number (R6 `LANE_BITS`, R7); also a value on `DIN` or `DOUT` (R6 `DIN_BITS`). -/
abbrev Lane := BitVec 64

end Sys2Proof
end

