-- ==== Sys2Proof/Syntax.lean ====
section
/-! DEFINITION. The commands of KECCAK256-CORE: what stands on the command port (`Command`) and the five
instructions of spec/opcode_table.json (`Instr`), with the operand fields of spec/30_encoding.md R70 to R73. -/

namespace Sys2Proof

/-- What the host presents in one transaction: the 8-bit word `CMD` together with the 64-bit operand `DIN` (R70). -/
structure Command where
  cmd : BitVec 8
  din : Lane
  deriving DecidableEq, Repr

/-- The instructions, one constructor per row of the opcode table (R71). Only ABSORB reads `DIN` (R73), so only
`absorb` carries it. -/
inductive Instr where
  /-- INIT, R130. -/
  | init
  /-- ABSORB `n`: `n` is the 4-bit field ARG, a byte count (R72); `din` is the operand `DIN` (R73). Rule R132. -/
  | absorb (n : BitVec 4) (din : Lane)
  /-- FINALIZE, R160. -/
  | finalize
  /-- RDDIG `k`: `k = ARG[1:0]`, the digest lane (R72). Rule R163. -/
  | rddig (k : BitVec 2)
  /-- RDSTAT, R180. -/
  | rdstat
  deriving DecidableEq, Repr

end Sys2Proof
end

