-- ==== Sys2Proof/WellFormed.lean ====
section
/-! DEFINITION. Which instructions, as syntax, the encoding admits (spec/30_encoding.md R72). The field types
already bound every operand to its field's width; the one further check is ABSORB's byte count. -/

namespace Sys2Proof

/-- R72: the byte count of an ABSORB is legal for 0 to 8; ARG values 9 to 15 are illegal. -/
def absorbCountLegal (n : BitVec 4) : Bool := decide (n.toNat ≤ 8)

/-- The well-formed instructions: those some legal command word stands for. -/
def Instr.wf : Instr → Bool
  | .init => true
  | .absorb n _ => absorbCountLegal n
  | .finalize => true
  | .rddig _ => true
  | .rdstat => true

end Sys2Proof
end

