-- ==== Sys2Proof/Decode.lean ====
section
/-! DEFINITION. From a command on the port to an instruction, and back (spec/30_encoding.md R70 to R75). `decode` is
total and rejects by name; `encode` is written from the field table of R70 and R71. -/

namespace Sys2Proof

/-! ### The fields of `CMD` (R70) -/

/-- OP, `CMD[2:0]`. -/
def opField (cmd : BitVec 8) : BitVec 3 := cmd.extractLsb' 0 3
/-- ARG, `CMD[6:3]`. -/
def argField (cmd : BitVec 8) : BitVec 4 := cmd.extractLsb' 3 4
/-- RSV, `CMD[7]`. -/
def rsvField (cmd : BitVec 8) : BitVec 1 := cmd.extractLsb' 7 1

/-- The predicate `Legal` of R74, clause by clause. -/
def legal (c : BitVec 8) : Bool :=
  decide (c.extractLsb' 7 1 = 0) &&
  ( decide (c.extractLsb' 0 3 = 0b001#3 ∧ c.extractLsb' 3 4 = 0) ||
    decide (c.extractLsb' 0 3 = 0b010#3 ∧ (c.extractLsb' 3 4).toNat ≤ 8) ||
    decide (c.extractLsb' 0 3 = 0b011#3 ∧ c.extractLsb' 3 4 = 0) ||
    decide (c.extractLsb' 0 3 = 0b100#3 ∧ c.extractLsb' 5 2 = 0) ||
    decide (c.extractLsb' 0 3 = 0b101#3 ∧ c.extractLsb' 3 4 = 0) )

/-- Why a command word is no instruction. All five are ILLEGAL_CMD to the core (R201); the names are for readers. -/
inductive Reject where
  /-- RSV is 1 (R70: "reserved; must be 0"). -/
  | reservedBitSet
  /-- OP is 000, 110 or 111 (R71). -/
  | reservedOp
  /-- INIT, FINALIZE or RDSTAT with ARG other than 0000 (R72). -/
  | argNotZero
  /-- ABSORB with a count of 9 to 15 (R72). -/
  | absorbCount
  /-- RDDIG with `ARG[3:2]` other than 00 (R72). -/
  | digestLane
  deriving DecidableEq, Repr

/-- The decoder: RSV first, then OP, then the operand check of that OP (R70 to R72). It needs only `CMD` to know
whether the command is legal (R70); `DIN` is kept for ABSORB alone (R73). -/
def decode (c : Command) : Except Reject Instr :=
  if rsvField c.cmd = 1#1 then .error .reservedBitSet
  else if opField c.cmd = 0b001#3 then
    if argField c.cmd = 0 then .ok .init else .error .argNotZero
  else if opField c.cmd = 0b010#3 then
    if absorbCountLegal (argField c.cmd) then .ok (.absorb (argField c.cmd) c.din) else .error .absorbCount
  else if opField c.cmd = 0b011#3 then
    if argField c.cmd = 0 then .ok .finalize else .error .argNotZero
  else if opField c.cmd = 0b100#3 then
    if (argField c.cmd).extractLsb' 2 2 = 0 then .ok (.rddig ((argField c.cmd).extractLsb' 0 2))
    else .error .digestLane
  else if opField c.cmd = 0b101#3 then
    if argField c.cmd = 0 then .ok .rdstat else .error .argNotZero
  else .error .reservedOp

/-- A command word from its fields, RSV 0 (R70). -/
def cmdWord (arg : BitVec 4) (op : BitVec 3) : BitVec 8 := (0#1 ++ arg ++ op : BitVec (1 + 4 + 3))

/-- The encoder (R70, R71, R77): a command that ignores `DIN` is written with `DIN = 0`, as R77 says of an omitted operand. -/
def encode : Instr → Command
  | .init => ⟨cmdWord 0 0b001#3, 0⟩
  | .absorb n din => ⟨cmdWord n 0b010#3, din⟩
  | .finalize => ⟨cmdWord 0 0b011#3, 0⟩
  | .rddig k => ⟨cmdWord ((0#2 ++ k : BitVec (2 + 2))) 0b100#3, 0⟩
  | .rdstat => ⟨cmdWord 0 0b101#3, 0⟩

/-! ### One number for one transaction

The opcode table numbers the bits of `CMD` 7 to 0; the model lets `DIN` follow as bits 71 to 8 (log entry 2). -/

/-- The transaction whose low `nbits` bits are those of `w`, every bit above them 0. -/
def commandOfTableWord (nbits w : Nat) : Command :=
  ⟨BitVec.ofNat 8 (w % 2 ^ nbits), BitVec.ofNat 64 ((w % 2 ^ nbits) >>> 8)⟩

/-- The instruction the decoder reads from such a transaction. -/
def decodeTableWord (nbits w : Nat) : Option Instr :=
  match decode (commandOfTableWord nbits w) with
  | .ok i => some i
  | .error _ => none

end Sys2Proof
end

