-- ==== Sys2Proof/Machine/State.lean ====
section
/-! DEFINITION. The state of KECCAK256-CORE as plain data (spec/10_state.md), its reset value (R36), and the reasons a
step could stop. The fields after `errCode` are the response port and the model's own two fields. -/

namespace Sys2Proof.Machine

/-- The lifecycle position of the context (R25). The value 3 is never stored, so it has no name (93 U3). -/
inductive Phase where
  /-- 0: after reset, before the first INIT. -/
  | idle
  /-- 1: after INIT and before FINALIZE. -/
  | absorbing
  /-- 2: after FINALIZE. -/
  | finalized
  deriving DecidableEq, Repr

/-- The error codes of R201, one constructor a row; 6 and 7 are never raised and have no name (93 U3). -/
inductive ErrCode where
  /-- 0 NONE: no error since the last INIT or reset; never raised. -/
  | none
  /-- 1 ILLEGAL_CMD. -/
  | illegalCmd
  /-- 2 NOT_INITIALIZED. -/
  | notInitialized
  /-- 3 ABSORB_AFTER_FINALIZE. -/
  | absorbAfterFinalize
  /-- 4 FINALIZE_AFTER_FINALIZE. -/
  | finalizeAfterFinalize
  /-- 5 DIGEST_NOT_READY. -/
  | digestNotReady
  deriving DecidableEq, Repr

/-- A response `rsp(err, dout)` (R31, R76): the port's `RSP_ERR` and `DOUT`. -/
structure Response where
  err : Bool
  dout : Lane
  deriving DecidableEq, Repr

/-- What the one host does next (R30, R230, R236). -/
inductive HostEvent where
  /-- A command, held stable until it is accepted (R233), and carried out whole. -/
  | command (c : Command)
  /-- A reset between two commands. -/
  | reset
  /-- A command that a reset cuts off while it is being carried out (R230). -/
  | resetDuring (c : Command)
  deriving DecidableEq, Repr

/-- The faults of the model. NO STEP ENDS IN ONE: every command has the effect the spec gives it (R200, R204). The value
is only ever RECORDED, in the field `faultRecord`, as 93 U1 asks. -/
inductive Fault where
  /-- The host's program broke the contract with this error first. Recorded by `State.recordError`, never an outcome of a step.
  Safe: a claim may take "no fault recorded" as a premise, and what the core does is modelled all the same. -/
  | contractViolation (code : ErrCode)
  deriving DecidableEq, Repr

/-- The refusals of the model. -/
inductive Refusal where
  /-- An instruction that has no meaning yet, raised by an arm of `exec` alone. Safe. Every instruction has its meaning,
  so no arm raises it. -/
  | notModelled (mnemonic : String)
  deriving DecidableEq, Repr

/-- The 25 lanes of the permutation state (R21), lane `i` at index `i`. -/
abbrev Lanes := Vector Lane 25

/-- The HashContext: "one HashState plus streaming bookkeeping" (R11, R20 to R24). -/
structure HashContext where
  /-- `S[0..24]` (R21). -/
  S : Lanes
  /-- `wordIndex` (R22): always 0 to 16; 17 to 31 are never stored (93 U3). -/
  wordIndex : Fin 17
  /-- `byteIndex` (R23): 0 to 7. -/
  byteIndex : Fin 8
  /-- `savedWord` (R24). -/
  savedWord : Lane
  deriving DecidableEq, Repr

/-- The zero state: "initializes to the zero state" (R36, R130). -/
def HashContext.zero : HashContext where
  S := Vector.replicate 25 0
  wordIndex := 0
  byteIndex := 0
  savedWord := 0

/-- The whole machine. The first four fields are the tuple of R20. -/
structure State where
  /-- `S`, `wordIndex`, `byteIndex`, `savedWord`. -/
  ctx : HashContext
  /-- `phase` (R25). -/
  phase : Phase
  /-- `err`, the sticky error flag (R26). -/
  err : Bool
  /-- `errCode`, the code of the first error (R27). -/
  errCode : ErrCode
  /-- The response port (R30, R31): `none` is `RSP_VALID = 0`; `some r` shows `RSP_ERR` and `DOUT` of the last accepted command. -/
  rsp : Option Response
  /-- The model's own record of the first contract violation, never cleared (93 U1). -/
  faultRecord : Option Fault
  /-- The model's own list of what the host does next, oldest first. -/
  host : List HostEvent
  deriving DecidableEq, Repr

/-- The state after reset (R36, R230): every element 0, the phase IDLE, no response pending; nothing recorded and nothing
presented by the host. -/
def State.reset : State where
  ctx := HashContext.zero
  phase := .idle
  err := false
  errCode := .none
  rsp := none
  faultRecord := none
  host := []

end Sys2Proof.Machine
end

