-- ==== Sys2Proof/Machine/Operands.lean ====
section
/-! DEFINITION. Operand forms and the primitives of the pseudocode: bytes of a 64-bit value and their order
(spec/00_scope.md R7, R9; spec/20_memory.md R51 to R54; spec/30_encoding.md R72, R73). -/

namespace Sys2Proof.Machine

/-- `rotl64(v, n)` (R9): rotate left by `n mod 64`. -/
def rotl64 (v : Lane) (n : Nat) : Lane := v.rotateLeft n

/-- `zext_64(b)` (R9). -/
def zext64 (b : Byte) : Lane := b.setWidth 64

/-- Byte `j` of a 64-bit value, `v[8j+7:8j]` (R7). -/
def byteOf (v : Lane) (j : Nat) : Byte := v.extractLsb' (8 * j) 8

/-- The first `n` bytes of a 64-bit value, byte 0 first: the data of an ABSORB `n` (R51, R73). -/
def dataBytes (v : Lane) (n : Nat) : List Byte := (List.range n).map (byteOf v)

/-- A lane written out as its 8 bytes, least significant first (R54). -/
def laneBytes (v : Lane) : List Byte := dataBytes v 8

/-- Little-endian packing of up to 8 bytes into a lane: byte `j` at bits `[8j+7:8j]`, zeros above (R52). -/
def packLane : List Byte → Lane
  | [] => 0
  | b :: bs => zext64 b ^^^ (packLane bs <<< 8)

/-- The byte count of an ABSORB, `n = zext(ARG)` (R72). -/
def absorbCount (arg : BitVec 4) : Nat := arg.toNat

/-- The lane RDDIG `k` reads: `S[k]`, `0 <= k <= 3` (R72, R163). -/
def digestLane (S : Lanes) (k : BitVec 2) : Lane := S[k.toNat]'(by have := k.isLt; omega)

/-- The digest: the 32 bytes `D[8k+j] = S[k][8j+7:8j]`, `D[0]` first (R54). -/
def digestOf (S : Lanes) : List Byte :=
  laneBytes S[0] ++ laneBytes S[1] ++ laneBytes S[2] ++ laneBytes S[3]

end Sys2Proof.Machine
end

