-- ==== Sys2Proof/Machine/Flags.lean ====
section
/-! DEFINITION. The flags `phase`, `err` and `errCode` (spec/10_state.md R37), their numbers, what an error does to them
(spec/60_exceptions.md R204, R205), the legality table (R202) and the status word (R32). -/

namespace Sys2Proof.Machine

/-- The number of a phase (R25). -/
def Phase.code : Phase → BitVec 2
  | .idle => 0
  | .absorbing => 1
  | .finalized => 2

/-- The number of an error code (R201). -/
def ErrCode.code : ErrCode → BitVec 3
  | .none => 0
  | .illegalCmd => 1
  | .notInitialized => 2
  | .absorbAfterFinalize => 3
  | .finalizeAfterFinalize => 4
  | .digestNotReady => 5

/-- `errCode` after an error with code `c`: the first error's code is kept (R205). -/
def State.errCodeAfter (s : State) (c : ErrCode) : ErrCode := if s.err then s.errCode else c

/-- The model's record after an error with code `c`: the first one is kept, for good (93 U1, log entry 4). -/
def State.faultAfter (s : State) (c : ErrCode) : Option Fault :=
  match s.faultRecord with
  | some f => some f
  | none => some (.contractViolation c)

/-- The flag part of `CmdError` (R204, R205): `err` set, the first error's code kept; and the record of 93 U1. -/
def State.recordError (s : State) (c : ErrCode) : State :=
  { s with err := true, errCode := s.errCodeAfter c, faultRecord := s.faultAfter c }

/-- The status word of R32, computed from the current state. -/
def statusWord (s : State) : Lane :=
  BitVec.ofNat 64 s.ctx.wordIndex.val
  ||| (BitVec.ofNat 64 s.ctx.byteIndex.val <<< 5)
  ||| (s.phase.code.setWidth 64 <<< 8)
  ||| ((BitVec.ofBool s.err).setWidth 64 <<< 10)
  ||| (s.errCode.code.setWidth 64 <<< 16)

/-- The table of R202, column by column, for a legal command: `none` is "ok", otherwise the code it raises. The meanings of the
commands follow their own pseudocode; this table is what they are held against. -/
def legality : Instr → Phase → Option ErrCode
  | .init, _ => none
  | .absorb _ _, .idle => some .notInitialized
  | .absorb _ _, .absorbing => none
  | .absorb _ _, .finalized => some .absorbAfterFinalize
  | .finalize, .idle => some .notInitialized
  | .finalize, .absorbing => none
  | .finalize, .finalized => some .finalizeAfterFinalize
  | .rddig _, .idle => some .notInitialized
  | .rddig _, .absorbing => some .digestNotReady
  | .rddig _, .finalized => none
  | .rdstat, _ => none

end Sys2Proof.Machine
end

