-- ==== Sys2Proof/Machine/Keccak.lean ====
section
/-! DEFINITION. The permutation Keccak-f[1600] (spec/40_permutation.md R100 to R109). An internal function: no command of the
host reaches it directly (R111). -/

namespace Sys2Proof.Machine

/-! ### Lane coordinates (R8, R101) -/

/-- `A[x,y] = S[x + 5*y]`: column `x`, row `y`; arithmetic on `x` and `y` is mod 5, as `Fin 5` has it. -/
def laneAt (S : Lanes) (x y : Fin 5) : Lane := S[x.val + 5 * y.val]

/-- The column of lane `i`. -/
def xOf (i : Fin 25) : Fin 5 := ⟨i.val % 5, by omega⟩

/-- The row of lane `i`. -/
def yOf (i : Fin 25) : Fin 5 := ⟨i.val / 5, by omega⟩

/-! ### Theta (R103) -/

/-- The column parities `C[x]`. -/
def thetaC (S : Lanes) : Vector Lane 5 :=
  Vector.ofFn fun x => laneAt S x 0 ^^^ laneAt S x 1 ^^^ laneAt S x 2 ^^^ laneAt S x 3 ^^^ laneAt S x 4

/-- `D[x] = C[x-1] XOR rotl64(C[x+1], 1)`: the column to the right enters rotated. -/
def thetaD (S : Lanes) : Vector Lane 5 :=
  Vector.ofFn fun x => (thetaC S)[x + 4] ^^^ rotl64 (thetaC S)[x + 1] 1

/-- Theta. -/
def theta (S : Lanes) : Lanes := Vector.ofFn fun i => S[i] ^^^ (thetaD S)[xOf i]

/-! ### Rho and Pi (R104, R105) -/

/-- `ROTC[0..23]`: the rotation of each step of the pass (R104; the order is that of the pass, 90_conflicts.md C1). -/
def rotc : List Nat :=
  [1, 3, 6, 10, 15, 21, 28, 36, 45, 55, 2, 14, 27, 41, 56, 8, 25, 43, 62, 18, 39, 61, 20, 44]

/-- `PILN[0..23]`: the destination lane of each step of the pass (R104). -/
def piln : List (Fin 25) :=
  [10, 7, 11, 17, 18, 3, 5, 16, 8, 21, 24, 4, 15, 23, 19, 13, 12, 2, 20, 14, 22, 9, 6, 1]

/-- One step of the pass, on the lanes and the temporary lane `t`: `S[j]` is read before it is written. -/
def rhoPiStep (p : Lanes × Lane) (e : Fin 25 × Nat) : Lanes × Lane :=
  (p.1.set e.1 (rotl64 p.2 e.2), p.1[e.1])

/-- Rho and Pi as the single pass of R104. -/
def rhoPi (S : Lanes) : Lanes := ((piln.zip rotc).foldl rhoPiStep (S, S[1])).1

/-- The rotation `r[i]` of lane `i` (R105). -/
def rotOf : Vector Nat 25 :=
  #v[0, 1, 62, 28, 27, 36, 44, 6, 55, 20, 3, 10, 43, 25, 39, 41, 45, 15, 21, 8, 18, 2, 61, 56, 14]

/-- Where lane `x + 5*y` moves: `y + 5*((2*x + 3*y) mod 5)` (R105). -/
def destOf (i : Fin 25) : Fin 25 := ⟨(yOf i).val + 5 * ((2 * (xOf i).val + 3 * (yOf i).val) % 5), by omega⟩

/-- Rho and Pi lane by lane (R105); every lane of the result is written, since `destOf` is a permutation. -/
def rhoPiByLane (S : Lanes) : Lanes :=
  (List.finRange 25).foldl (fun B i => B.set (destOf i) (rotl64 S[i] rotOf[i])) S

/-! ### Chi and Iota (R106, R107) -/

/-- Chi: every term reads the row as it was before (R106). -/
def chi (S : Lanes) : Lanes :=
  Vector.ofFn fun i => S[i] ^^^ (~~~ (laneAt S (xOf i + 1) (yOf i)) &&& laneAt S (xOf i + 2) (yOf i))

/-- The table of R107 row by row, as it is printed: row `r` holds `RC[r]` and `RC[r + 12]`. -/
def constantRows : List (Lane × Lane) :=
  [(0x0000000000000001, 0x000000008000808B),
   (0x0000000000008082, 0x800000000000008B),
   (0x800000000000808A, 0x8000000000008089),
   (0x8000000080008000, 0x8000000000008003),
   (0x000000000000808B, 0x8000000000008002),
   (0x0000000080000001, 0x8000000000000080),
   (0x8000000080008081, 0x000000000000800A),
   (0x8000000000008009, 0x800000008000000A),
   (0x000000000000008A, 0x8000000080008081),
   (0x0000000000000088, 0x8000000000008080),
   (0x0000000080008009, 0x0000000080000001),
   (0x000000008000000A, 0x8000000080008008)]

/-- The round constants `RC[0..23]` in order: the left column of the table, then the right (R107). -/
def roundConstants : List Lane := constantRows.map Prod.fst ++ constantRows.map Prod.snd

/-- Iota with the round's constant (R107). -/
def iota (S : Lanes) (rc : Lane) : Lanes := S.set 0 (S[0] ^^^ rc)

/-! ### The round and the permutation (R100, R102) -/

/-- One round: Theta, Rho and Pi, Chi, Iota (R102). -/
def keccakRound (S : Lanes) (rc : Lane) : Lanes := iota (chi (rhoPi (theta S))) rc

/-- `KeccakF`: the 24 rounds in order (R100). Irreducible, so that no proof runs it by accident; `keccakF_eq` unfolds it. -/
@[irreducible] def keccakF (S : Lanes) : Lanes := roundConstants.foldl keccakRound S

/-! ### The closed form of the constants (R108), for cross-checking only -/

/-- One step of the LFSR: prepend a 0, XOR the bit that leaves, `R[8]`, into `R[0]`, `R[4]`, `R[5]`, `R[6]`. -/
def lfsrStep (r : Byte) : Byte := (r <<< 1) ^^^ (if r.getLsbD 7 then 0x71 else 0)

/-- The register after `t` steps from `R = 10000000`, `R[0]` first. -/
def lfsr : Nat → Byte
  | 0 => 0x01
  | t + 1 => lfsrStep (lfsr t)

/-- `rc(t)`. -/
def rcBit (t : Nat) : Bool := if t % 255 = 0 then true else (lfsr (t % 255)).getLsbD 0

/-- `RC[ir]` by the closed form: bit `2^j - 1` is `rc(j + 7*ir)`, for `j = 0..6`, all others 0. -/
def rcClosedForm (ir : Nat) : Lane :=
  (List.range 7).foldl (fun v j => v ||| (if rcBit (j + 7 * ir) then 1 <<< (2 ^ j - 1) else 0)) 0

end Sys2Proof.Machine
end

