-- ==== Sys2Proof/Machine/Ops.lean ====
section
/-! DEFINITION. The named operations every command is built from: responses, the command error, absorption of one byte,
padding, reset, and the host's events (spec/10_state.md R31, spec/41_absorb.md R131, spec/42_finalize.md R160,
spec/60_exceptions.md R204, spec/70_reset_and_hazards.md R230). -/

namespace Sys2Proof.Machine

/-! ### Updates of the state -/

/-- Put another context in place. -/
def State.withCtx (s : State) (c : HashContext) : State := { s with ctx := c }

/-- `rsp(err, dout)` (R31). -/
def State.respond (s : State) (err : Bool) (dout : Lane) : State := { s with rsp := some ⟨err, dout⟩ }

/-- The host's events still to come. -/
def State.withHost (s : State) (h : List HostEvent) : State := { s with host := h }

/-! ### The command error: this core's only exception (R200, R204) -/

/-- `CmdError(code)` (R204): the flags, then the response (1, 0); nothing else of the hardware changes. It saves no state and
transfers no control, and there is no return from it (R208). -/
def cmdError (code : ErrCode) (s : State) : State := (s.recordError code).respond true 0

/-- A command word that is not legal, in any phase (R75, R203): `CmdError(ILLEGAL_CMD)`. -/
def illegalCommand (s : State) : State := cmdError .illegalCmd s

/-! ### Absorption (R131) -/

/-- XOR a value into lane `i`. -/
def xorLane (S : Lanes) (i : Fin 25) (v : Lane) : Lanes := S.set i (S[i] ^^^ v)

/-- The lane of the state that `wordIndex` names: one of the rate lanes 0 to 16 (R21, R22). -/
def rateLane (w : Fin 17) : Fin 25 := ⟨w.val, by omega⟩

/-- The completion of a lane holding `w` (R131): it is XORed into `S[wordIndex]`, the partial lane is cleared and
`wordIndex` advances; the 17th lane runs the permutation and starts a new block. -/
def completeLane (c : HashContext) (w : Lane) : HashContext :=
  if c.wordIndex = 16 then
    { S := keccakF (xorLane c.S (rateLane c.wordIndex) w), wordIndex := 0, byteIndex := 0, savedWord := 0 }
  else
    { S := xorLane c.S (rateLane c.wordIndex) w, wordIndex := c.wordIndex + 1, byteIndex := 0, savedWord := 0 }

/-- `savedWord` with byte `b` put at position `byteIndex` (R131). -/
def savedWith (c : HashContext) (b : Byte) : Lane := c.savedWord ^^^ (zext64 b <<< (8 * c.byteIndex.val))

/-- `AbsorbByte(b)` (R131). -/
def absorbByte (c : HashContext) (b : Byte) : HashContext :=
  if c.byteIndex = 7 then completeLane c (savedWith c b)
  else { c with savedWord := savedWith c b, byteIndex := c.byteIndex + 1 }

/-- `AbsorbByte` over the bytes in order (R132). -/
def absorbBytes (c : HashContext) (bs : List Byte) : HashContext := bs.foldl absorbByte c

/-! ### Padding and finalization (R160) -/

/-- The lanes just before the final permutation: both padding XORs, one after the other, so that both land in lane 16 when
`wordIndex = 16` (R160, R162). -/
def padLanes (c : HashContext) : Lanes :=
  xorLane (xorLane c.S (rateLane c.wordIndex) (c.savedWord ^^^ (1 <<< (8 * c.byteIndex.val)))) 16 0x8000000000000000

/-- The context after FINALIZE: padded, permuted, the bookkeeping zero (R160). -/
def finalizeContext (c : HashContext) : HashContext :=
  { S := keccakF (padLanes c), wordIndex := 0, byteIndex := 0, savedWord := 0 }

/-! ### Reset and the host's events -/

/-- A reset event (R230): every element takes its reset value (R36). The model's own two fields are not the core's: the host's
further events and the fault record stay (log entry 5). -/
def resetEvent (s : State) : State :=
  { State.reset with faultRecord := s.faultRecord, host := s.host }

/-- Put a command where the next step takes it from: first of the host's events. -/
def presentCommand (c : Command) (s : State) : State := s.withHost (.command c :: s.host)

end Sys2Proof.Machine
end

