-- ==== Sys2Proof/Machine/Absorb.lean ====
section
/-! DEFINITION. INIT and ABSORB (spec/41_absorb.md R130, R132). -/

namespace Sys2Proof.Machine

/-- INIT (R130): everything zero, the phase ABSORBING, the error state cleared, in every phase. -/
def execInit (s : State) : Host.Outcome State Fault Refusal :=
  .next (State.respond { s with ctx := HashContext.zero, phase := .absorbing, err := false, errCode := .none } false 0)

/-- ABSORB `n` (R132), its checks in the order of the pseudocode. The first, `Legal(CMD)`, is also the decoder's; here it makes
the meaning of a count of 9 to 15 the error the spec names (log entry 11). -/
def execAbsorb (n : BitVec 4) (din : Lane) (s : State) : Host.Outcome State Fault Refusal :=
  if absorbCountLegal n then
    match s.phase with
    | .idle => .next (cmdError .notInitialized s)
    | .finalized => .next (cmdError .absorbAfterFinalize s)
    | .absorbing => .next ((s.withCtx (absorbBytes s.ctx (dataBytes din (absorbCount n)))).respond false 0)
  else .next (illegalCommand s)

end Sys2Proof.Machine
end

