-- ==== Sys2Proof/Machine/Finalize.lean ====
section
/-! DEFINITION. FINALIZE and RDDIG (spec/42_finalize.md R160, R163). -/

namespace Sys2Proof.Machine

/-- FINALIZE (R160). -/
def execFinalize (s : State) : Host.Outcome State Fault Refusal :=
  match s.phase with
  | .idle => .next (cmdError .notInitialized s)
  | .finalized => .next (cmdError .finalizeAfterFinalize s)
  | .absorbing => .next (State.respond { s with ctx := finalizeContext s.ctx, phase := .finalized } false 0)

/-- RDDIG `k` (R163): no state is written but the response. -/
def execRddig (k : BitVec 2) (s : State) : Host.Outcome State Fault Refusal :=
  match s.phase with
  | .idle => .next (cmdError .notInitialized s)
  | .absorbing => .next (cmdError .digestNotReady s)
  | .finalized => .next (s.respond false (digestLane s.ctx.S k))

end Sys2Proof.Machine
end

