-- ==== Sys2Proof/Machine/Status.lean ====
section
/-! DEFINITION. RDSTAT (spec/43_status.md R180). -/

namespace Sys2Proof.Machine

/-- RDSTAT (R180): the status word of the current state, in every phase; no state is written but the response. -/
def execRdstat (s : State) : Host.Outcome State Fault Refusal := .next (s.respond false (statusWord s))

end Sys2Proof.Machine
end

