-- ==== Sys2Proof/Machine/Dispatch.lean ====
section
/-! DEFINITION. One arm per instruction (spec/30_encoding.md R71). -/

namespace Sys2Proof.Machine

def exec (i : Instr) (s : State) : Host.Outcome State Fault Refusal :=
  match i with
  | .init => Sys2Proof.Machine.execInit s
  | .absorb n din => Sys2Proof.Machine.execAbsorb n din s
  | .finalize => Sys2Proof.Machine.execFinalize s
  | .rddig k => Sys2Proof.Machine.execRddig k s
  | .rdstat => Sys2Proof.Machine.execRdstat s

end Sys2Proof.Machine
end

