-- ==== Sys2Proof/Machine/Transaction.lean ====
section
/-! DEFINITION. What one step carries out: the host's next event (spec/10_state.md R30 "one step per accepted command, and one
step per reset"; spec/70_reset_and_hazards.md R230). -/

namespace Sys2Proof.Machine

/-- An accepted command: decoded first, so an illegal word is never reported as a phase error (R203). -/
def acceptCommand (c : Command) (s : State) : Host.Outcome State Fault Refusal :=
  match decode c with
  | .ok i => exec i s
  | .error _ => .next (illegalCommand s)

/-- The host's next event. A reset during a command discards the command: none of its effects, no response (R230). With nothing
presented the core waits, and nothing changes (log entry 1). -/
def hostStep (s : State) : Host.Outcome State Fault Refusal :=
  match s.host with
  | [] => .next s
  | .command c :: rest => acceptCommand c (s.withHost rest)
  | .reset :: rest => .next (resetEvent (s.withHost rest))
  | .resetDuring _ :: rest => .next (resetEvent (s.withHost rest))

end Sys2Proof.Machine
end

