-- ==== Sys2Proof/Machine/Step.lean ====
section
/-! DEFINITION. The step of the machine, and where it takes its next command from. -/

namespace Sys2Proof.Machine

/-- One step: one transaction of the host (R30). -/
def step (s : State) : Host.Outcome State Fault Refusal := hostStep s

/-- The state with the command that `w` spells presented next (log entry 2). -/
def State.withFetchWord (s : State) (nbits w : Nat) : State := presentCommand (commandOfTableWord nbits w) s

end Sys2Proof.Machine
end

