-- ==== Sys2Proof/Machine/Assembler.lean ====
section
/-! DEFINITION. The written form of command sequences: the syntax of spec/30_encoding.md R77 and the pseudo-commands of R78.
Notation over the commands; the core knows nothing of it. Text is a list of characters. -/

namespace Sys2Proof.Machine

/-- The value of a text line, before expansion. -/
inductive AsmLine where
  /-- One of the five commands (R77). -/
  | instr (i : Instr)
  /-- `.cmd 0xHH, v`: a raw command word (R77). -/
  | raw (cmd : BitVec 8) (din : Lane)
  /-- `ABSORBB b0, b1, ...` or `ABSORBS "text"` (R78 item 1). -/
  | absorbb (bytes : List Byte)
  /-- `HASH b0, b1, ...` (R78 item 2). -/
  | hash (bytes : List Byte)
  deriving DecidableEq, Repr

/-- One ABSORB of the bytes given, at most 8 of them, low byte first (R77, R78). -/
def absorbOf (bs : List Byte) : Instr := .absorb (BitVec.ofNat 4 bs.length) (packLane bs)

/-- `k` commands ABSORB 8, then one ABSORB of the tail unless it is empty (R78 item 1). -/
def absorbbFrom : Nat → List Byte → List Instr
  | 0, bs => if bs.length = 0 then [] else [absorbOf bs]
  | k + 1, bs => absorbOf (bs.take 8) :: absorbbFrom k (bs.drop 8)

/-- The expansion of ABSORBB (R78 item 1). -/
def expandAbsorbb (bs : List Byte) : List Instr := absorbbFrom (bs.length / 8) bs

/-- The expansion of HASH (R78 item 2). -/
def expandHash (bs : List Byte) : List Instr :=
  [.init] ++ expandAbsorbb bs ++ [.finalize, .rddig 0, .rddig 1, .rddig 2, .rddig 3]

/-- The commands a line stands for (R77, R78). -/
def AsmLine.commands : AsmLine → List Command
  | .instr i => [encode i]
  | .raw cmd din => [⟨cmd, din⟩]
  | .absorbb bs => (expandAbsorbb bs).map encode
  | .hash bs => (expandHash bs).map encode

/-! ### Reading the text (R77) -/

/-- The value of a digit, decimal or hexadecimal. -/
def digitValue (c : Char) : Option Nat :=
  if '0' ≤ c ∧ c ≤ '9' then some (c.toNat - '0'.toNat)
  else if 'a' ≤ c ∧ c ≤ 'f' then some (c.toNat - 'a'.toNat + 10)
  else if 'A' ≤ c ∧ c ≤ 'F' then some (c.toNat - 'A'.toNat + 10)
  else none

/-- Digits of one base, most significant first, onto a value read so far. -/
def readDigits (base : Nat) : List Char → Nat → Option Nat
  | [], v => some v
  | c :: cs, v =>
    match digitValue c with
    | some d => if d < base then readDigits base cs (v * base + d) else none
    | none => none

/-- A number in the text, and whether it is written in hexadecimal. -/
structure Number where
  hex : Bool
  value : Nat
  deriving DecidableEq, Repr

/-- A number: `0x` and hexadecimal digits, or decimal digits; at least one digit. Any number of digits, leading zeros included, so
`0x5`, `0x05` and `0x005` are one number (DESIGN CHOICE, log entry 15: R77 writes `0xHH`, "in hex" and "decimal" and gives no count). -/
def readNumber (cs : List Char) : Option Number :=
  if cs.take 2 = ['0', 'x'] then
    if cs.drop 2 = [] then none else (readDigits 16 (cs.drop 2) 0).map (Number.mk true)
  else if cs = [] then none
  else (readDigits 10 cs 0).map (Number.mk false)

/-- A blank of a line. -/
def isBlank (c : Char) : Bool := decide (c = ' ' ∨ c = '\t')

/-- Text without the blanks before and after it. -/
def trim (cs : List Char) : List Char := ((cs.dropWhile isBlank).reverse.dropWhile isBlank).reverse

/-- Text split at its commas. -/
def splitCommas : List Char → List (List Char)
  | [] => [[]]
  | c :: cs =>
    match splitCommas cs with
    | [] => [[c]]
    | w :: ws => if c = ',' then [] :: w :: ws else (c :: w) :: ws

/-- The operands of a line: numbers between commas; none at all when only blanks stand there. -/
def readOperands (cs : List Char) : Option (List Number) :=
  if trim cs = [] then some [] else (splitCommas cs).mapM fun piece => readNumber (trim piece)

/-- A decimal operand of at most `most`: the `n` of ABSORB, the `k` of RDDIG (R77). The value is bounded, the count of digits is not
(DESIGN CHOICE, log entry 15). -/
def decimal (most : Nat) (x : Number) : Option Nat := if x.hex = false ∧ x.value ≤ most then some x.value else none

/-- A hexadecimal operand of `w` bits: `v` and the word of `.cmd` (R77). The value is bounded, the count of digits is not
(DESIGN CHOICE, log entry 15). -/
def hexadecimal (w : Nat) (x : Number) : Option (BitVec w) :=
  if x.hex = true ∧ x.value < 2 ^ w then some (BitVec.ofNat w x.value) else none

/-- A byte of a byte list (R78), in either base. -/
def byteOperand (x : Number) : Option Byte := if x.value < 256 then some (BitVec.ofNat 8 x.value) else none

/-- Whether a command word reads any of `DIN`: a legal ABSORB of at least one byte (R73). `v` may be left out of the others (R77). -/
def readsDin (cmd : BitVec 8) : Bool := legal cmd && decide (opField cmd = 0b010#3 ∧ argField cmd ≠ 0)

/-- The words of R77 and R78 with their operands. -/
def lineOf (word : List Char) (ops : List Number) : Option AsmLine :=
  if word = ['I', 'N', 'I', 'T'] then
    if ops = [] then some (.instr .init) else none
  else if word = ['A', 'B', 'S', 'O', 'R', 'B'] then
    match ops with
    | [n] => (decimal 0 n).map fun _ => .instr (.absorb 0 0)
    | [n, v] => (decimal 8 n).bind fun n => (hexadecimal 64 v).map fun v => .instr (.absorb (BitVec.ofNat 4 n) v)
    | _ => none
  else if word = ['F', 'I', 'N', 'A', 'L', 'I', 'Z', 'E'] then
    if ops = [] then some (.instr .finalize) else none
  else if word = ['R', 'D', 'D', 'I', 'G'] then
    match ops with
    | [k] => (decimal 3 k).map fun k => .instr (.rddig (BitVec.ofNat 2 k))
    | _ => none
  else if word = ['R', 'D', 'S', 'T', 'A', 'T'] then
    if ops = [] then some (.instr .rdstat) else none
  else if word = ['.', 'c', 'm', 'd'] then
    match ops with
    | [w] => (hexadecimal 8 w).bind fun w => if readsDin w then none else some (.raw w 0)
    | [w, v] => (hexadecimal 8 w).bind fun w => (hexadecimal 64 v).map fun v => .raw w v
    | _ => none
  else if word = ['A', 'B', 'S', 'O', 'R', 'B', 'B'] then (ops.mapM byteOperand).map .absorbb
  else if word = ['H', 'A', 'S', 'H'] then (ops.mapM byteOperand).map .hash
  else none

/-- `"text"` as its ASCII bytes; between the closing quote and the end of the line only blanks or a comment may stand. A `;` between
the quotes is a byte of the text and begins no comment, and a backslash is a byte like any other (DESIGN CHOICE, log entry 15: R77 says
a `;` begins a comment, R78 takes the bytes of the string, and neither says which holds inside one). -/
def readQuoted (cs : List Char) : Option (List Byte) :=
  let opened := cs.dropWhile isBlank
  let text := (opened.drop 1).takeWhile (· ≠ '"')
  let closed := (opened.drop 1).drop text.length
  if opened.head? = some '"' ∧ closed ≠ [] ∧ trim ((closed.drop 1).takeWhile (· ≠ ';')) = [] then
    text.mapM fun c => if c.toNat < 128 then some (BitVec.ofNat 8 c.toNat) else none
  else none

/-- One line of text: its first word, its operands, and a comment from `;` on (R77). `some []` for a line that holds no command,
`none` for one that is not of the syntax. The word that takes a string is `ABSORBS` or, as 95_test_vectors.md writes it, `HASH`. -/
def readLine (text : List Char) : Option (List AsmLine) :=
  let line := text.dropWhile isBlank
  let word := line.takeWhile fun c => !isBlank c && c != ';' && c != '"'
  let rest := line.drop word.length
  if word = ['A', 'B', 'S', 'O', 'R', 'B', 'S'] then (readQuoted rest).map fun bs => [.absorbb bs]
  else if word = ['H', 'A', 'S', 'H'] ∧ (readQuoted rest).isSome then (readQuoted rest).map fun bs => [.hash bs]
  else if word = [] then
    if trim (rest.takeWhile (· ≠ ';')) = [] then some [] else none
  else (readOperands (rest.takeWhile (· ≠ ';'))).bind fun ops => (lineOf word ops).map fun l => [l]

/-- A text of several lines as the commands it stands for, one line per list of characters. -/
def assemble (lines : List (List Char)) : Option (List Command) :=
  (lines.mapM readLine).map fun ls => ls.flatten.flatMap AsmLine.commands

end Sys2Proof.Machine
end

