-- ==== Sys2Proof/Config.lean ====
section
/-! DEFINITION. The implementation parameters of spec/00_scope.md R6. The configuration is fixed (R3, R33), so each is a
number; only `CMD_LATENCY` is open (R237), and it has no body. -/

namespace Sys2Proof.Config

/-- R6 `LANES`. -/
abbrev lanes : Nat := 25
/-- R6 `LANE_BITS`. -/
abbrev laneBits : Nat := 64
/-- R6 `STATE_BITS`. -/
abbrev stateBits : Nat := 1600
/-- R6 `CAPACITY_LANES`. -/
abbrev capacityLanes : Nat := 8
/-- R6 `RATE_LANES`. -/
abbrev rateLanes : Nat := 17
/-- R6 `RATE_BYTES`. -/
abbrev rateBytes : Nat := 136
/-- R6 `ROUNDS`. -/
abbrev rounds : Nat := 24
/-- R6 `DIGEST_BYTES`. -/
abbrev digestBytes : Nat := 32
/-- R6 `DIGEST_LANES`. -/
abbrev digestLanes : Nat := 4
/-- R6 `CMD_BITS`. -/
abbrev cmdBits : Nat := 8
/-- R6 `DIN_BITS`, `DOUT_BITS`. -/
abbrev dataBits : Nat := 64
/-- R6 `MAX_ABSORB_BYTES`. -/
abbrev maxAbsorbBytes : Nat := 8

/-- `CMD_LATENCY` (R6, R237): the time from a command's acceptance to its response, for the command word, its `DIN`
and the number of the transaction. OPEN in the spec and uninterpreted here; no definition of the model uses it,
as R237 demands ("No rule of this spec depends on it, and a model must not either"). Log entry 9. -/
opaque cmdLatency : BitVec 8 → Lane → Nat → Nat

end Sys2Proof.Config
end

