-- ==== Sys2Proof/Machine/Reference.lean ====
section
/-! DEFINITION. What the spec says of whole messages, written apart from the commands so that the machine can be held against it:
the source's absorb procedure (spec/41_absorb.md R133), the padded message (spec/42_finalize.md R161), the sponge over rate blocks
(spec/20_memory.md R52, spec/00_scope.md R11), the count of permutations (R135, R165), and byte-at-once absorption
(spec/10_state.md R34). The step uses none of it. -/

namespace Sys2Proof.Machine

/-! ### The source's absorb procedure (R133) -/

/-- Bytes appended to the partial lane, fewer than complete it (steps 1 and 4). -/
def storePartial (c : HashContext) (bs : List Byte) : HashContext :=
  { c with
    savedWord := c.savedWord ^^^ (packLane bs <<< (8 * c.byteIndex.val))
    byteIndex := Fin.ofNat 8 (c.byteIndex.val + bs.length) }

/-- Steps 3 and 4: `k` full groups of 8 bytes, each packed and XORed into the lane at `wordIndex`, then the tail. -/
def absorbGroups : Nat → HashContext → List Byte → HashContext
  | 0, c, bs => storePartial c bs
  | k + 1, c, bs => absorbGroups k (completeLane c (packLane (bs.take 8))) (bs.drop 8)

/-- Steps 3 and 4 on all the bytes that are left. -/
def absorbWhole (c : HashContext) (bs : List Byte) : HashContext := absorbGroups (bs.length / 8) c bs

/-- The procedure of R133. Step 2 applies only when `byteIndex > 0` (90_conflicts.md C4). -/
def absorbSource (c : HashContext) (data : List Byte) : HashContext :=
  if c.byteIndex = 0 then absorbWhole c data
  else if data.length < 8 - c.byteIndex.val then storePartial c data
  else
    absorbWhole
      (completeLane c (c.savedWord ^^^ (packLane (data.take (8 - c.byteIndex.val)) <<< (8 * c.byteIndex.val))))
      (data.drop (8 - c.byteIndex.val))

/-! ### How many permutations run (R135, R165) -/

/-- Whether the next byte fills the rate block, and so runs the permutation (R131). -/
def fillsBlock (c : HashContext) : Bool := decide (c.byteIndex = 7 ∧ c.wordIndex = 16)

/-- The permutations that run while the bytes are absorbed. -/
def permutationsIn : HashContext → List Byte → Nat
  | _, [] => 0
  | c, b :: bs => (if fillsBlock c then 1 else 0) + permutationsIn (absorbByte c b) bs

/-! ### The sponge over the padded message (R52, R161) -/

/-- Keccak's padding of a message of length `L`, with `q = L mod 136` (R161). -/
def padding (q : Nat) : List Byte :=
  if q = 135 then [0x81] else 0x01 :: (List.replicate (134 - q) 0x00 ++ [0x80])

/-- The padded message. -/
def padMessage (m : List Byte) : List Byte := m ++ padding (m.length % Config.rateBytes)

/-- A rate block XORed into lanes 0 to 16: bytes `8i` to `8i+7` of the block into lane `i` (R52). -/
def xorBlock (S : Lanes) (block : List Byte) : Lanes :=
  Vector.ofFn fun i => if i.val < Config.rateLanes then S[i] ^^^ packLane ((block.drop (8 * i.val)).take 8) else S[i]

/-- Absorb `k` rate blocks, one permutation after each. -/
def spongeBlocks : Nat → Lanes → List Byte → Lanes
  | 0, S, _ => S
  | k + 1, S, m => spongeBlocks k (keccakF (xorBlock S (m.take Config.rateBytes))) (m.drop Config.rateBytes)

/-- Keccak-256 of a message, as the plain sponge: pad, absorb every block into the zero state, take the first 32 bytes
(R2, R11, R54, R161). -/
def keccak256 (m : List Byte) : List Byte :=
  digestOf (spongeBlocks ((padMessage m).length / Config.rateBytes) HashContext.zero.S (padMessage m))

/-! ### Every byte XORed into the state at once (R34) -/

/-- A byte that goes into `S` at once; `savedWord` stays as it is and is not used. -/
def eagerByte (c : HashContext) (b : Byte) : HashContext :=
  let S := xorLane c.S (rateLane c.wordIndex) (zext64 b <<< (8 * c.byteIndex.val))
  if c.byteIndex = 7 then
    if c.wordIndex = 16 then { c with S := keccakF S, wordIndex := 0, byteIndex := 0 }
    else { c with S := S, wordIndex := c.wordIndex + 1, byteIndex := 0 }
  else { c with S := S, byteIndex := c.byteIndex + 1 }

/-- A message absorbed that way. -/
def eagerBytes (c : HashContext) (bs : List Byte) : HashContext := bs.foldl eagerByte c

end Sys2Proof.Machine
end

