-- ==== Sys2Proof/Safety.lean ====
section
/-! DEFINITION. The terms claims are stated in: the invariants of spec/10_state.md R28, runs and their responses
(spec/70_reset_and_hazards.md R236), well-behaved runs, and the bytes a command carries. -/

namespace Sys2Proof.Machine

/-! ### The invariants of R28 -/

/-- R28 item 2: the bytes of `savedWord` at positions `byteIndex` and above are zero (all of it when `byteIndex = 0`).
Item 1, the two index bounds, is in the types of the fields. -/
abbrev HashContext.SavedClear (c : HashContext) : Prop := c.savedWord >>> (8 * c.byteIndex.val) = 0

/-- R28 item 3. -/
abbrev State.IdleIsZero (s : State) : Prop := s.phase = .idle → s.ctx = HashContext.zero

/-- R28 item 4. -/
abbrev State.FinalizedIsClear (s : State) : Prop :=
  s.phase = .finalized → s.ctx.wordIndex = 0 ∧ s.ctx.byteIndex = 0 ∧ s.ctx.savedWord = 0

/-- R28 item 5. -/
abbrev State.ErrCodeAgrees (s : State) : Prop :=
  (s.err = false → s.errCode = .none) ∧ (s.err = true → 1 ≤ s.errCode.code.toNat ∧ s.errCode.code.toNat ≤ 5)

/-- R28: what holds in every reachable state. -/
abbrev State.Inv (s : State) : Prop :=
  s.ctx.SavedClear ∧ s.IdleIsZero ∧ s.FinalizedIsClear ∧ s.ErrCodeAgrees

/-- The model's own record agrees with the hardware's flag: an error that stands is recorded (93 U1). -/
abbrev State.FaultRecorded (s : State) : Prop := s.err = true → s.faultRecord ≠ none

/-! ### What a command carries -/

/-- The message bytes of an instruction, when it runs (R51): those of an ABSORB, none for the others. -/
def Instr.bytes : Instr → List Byte
  | .absorb n din => dataBytes din (absorbCount n)
  | _ => []

/-- The message bytes of a command word with its `DIN`; an illegal word carries none (R75). -/
def commandBytes (c : Command) : List Byte :=
  match decode c with
  | .ok i => Instr.bytes i
  | .error _ => []

/-- The bytes of a list of commands, in acceptance order (R51). -/
def messageOf (cs : List Command) : List Byte := cs.flatMap commandBytes

/-- The command words that start or end a message. -/
def startsOrEnds (c : Command) : Bool := decide (decode c = .ok .init ∨ decode c = .ok .finalize)

/-- The command words that belong inside a message: a legal ABSORB, or a RDSTAT between two of them (R134). -/
def absorbsOrReads (c : Command) : Bool :=
  match decode c with
  | .ok (.absorb _ _) => true
  | .ok .rdstat => true
  | _ => false

/-- The legal ABSORB words. -/
def absorbs (c : Command) : Bool :=
  match decode c with
  | .ok (.absorb _ _) => true
  | _ => false

/-- The list of events in which the host issues the commands given, one after another. -/
def commandEvents (cs : List Command) : List HostEvent := cs.map .command

/-! ### Runs (R236) -/

/-- The response a step left, for an event that gets one: a command carried out whole (R31). -/
def responseTo (e : HostEvent) (s : State) : List Response :=
  match e with
  | .command _ => s.rsp.toList
  | .reset => []
  | .resetDuring _ => []

/-- A run over a finite sequence of host events: the responses in order, and the final state (R236). Each event is one
`step`. (No step stops; were one to, the run would end there.) -/
def runEvents : List HostEvent → State → List Response × State
  | [], s => ([], s)
  | e :: es, s =>
    match step (s.withHost [e]) with
    | .next t => (responseTo e t ++ (runEvents es t).1, (runEvents es t).2)
    | .fault _ => ([], s)
    | .refused _ => ([], s)

/-- The run in which the host issues the commands given and nothing else. -/
def runCommands (cs : List Command) (s : State) : List Response × State := runEvents (commandEvents cs) s

/-- The permutations an instruction runs (R110): those its bytes trigger for an ABSORB, one for a FINALIZE, none for the others, and
none for an instruction that errs. -/
def Instr.permutations (i : Instr) (s : State) : Nat :=
  match legality i s.phase with
  | some _ => 0
  | none =>
    match i with
    | .absorb n din => permutationsIn s.ctx (dataBytes din (absorbCount n))
    | .finalize => 1
    | .init => 0
    | .rddig _ => 0
    | .rdstat => 0

/-- The permutations a command word runs; an illegal word runs none (R75, R110). -/
def commandPermutations (c : Command) (s : State) : Nat :=
  match decode c with
  | .ok i => Instr.permutations i s
  | .error _ => 0

/-- The permutations that run while the host issues the commands given. -/
def runPermutations : List Command → State → Nat
  | [], _ => 0
  | c :: cs, s => commandPermutations c s + runPermutations cs (runCommands [c] s).2

/-- A run is well-behaved if no response in it has `RSP_ERR = 1` (R236). -/
def wellBehaved (rs : List Response) : Bool := rs.all fun r => !r.err

end Sys2Proof.Machine
end

