-- ==== Sys2Proof/Certificates/Slice0/Obligations.lean ====
section
/-! DEFINITION. The statements for the provers, one `def Obligations.<Name> : Prop` each; its docstring names the rule of spec/ it
formalises. A clause about `faultRecord` or `host` is the model's own (log entries 1, 4, 5), never the spec's. -/

open Sys2Proof Sys2Proof.Machine

/-! ### Encoding -/

/-- Every well-formed instruction, with every operand at every value its encoding admits, is what its encoding decodes to
(R70 to R73, R77). -/
def Obligations.DecodeEncodeRoundTrip : Prop :=
  ∀ i : Instr, i.wf = true → decode (encode i) = .ok i

/-- R74: a command word decodes exactly when `Legal` holds of it, and the legal words are the sixteen that R74 lists. -/
def Obligations.DecodeAcceptsExactlyLegalWords : Prop :=
  ∀ (cmd : BitVec 8) (din : Lane),
    ((∃ i, decode ⟨cmd, din⟩ = .ok i) ↔
      (cmd.getLsbD 7 = false ∧
        ((cmd.extractLsb' 0 3 = 0b001#3 ∧ cmd.extractLsb' 3 4 = 0#4) ∨
         (cmd.extractLsb' 0 3 = 0b010#3 ∧ cmd.extractLsb' 3 4 ≤ 8#4) ∨
         (cmd.extractLsb' 0 3 = 0b011#3 ∧ cmd.extractLsb' 3 4 = 0#4) ∨
         (cmd.extractLsb' 0 3 = 0b100#3 ∧ cmd.extractLsb' 5 2 = 0#2) ∨
         (cmd.extractLsb' 0 3 = 0b101#3 ∧ cmd.extractLsb' 3 4 = 0#4)))) ∧
    ((∃ i, decode ⟨cmd, din⟩ = .ok i) ↔ legal cmd = true) ∧
    (legal cmd = true ↔
      cmd ∈ [0x01#8, 0x02#8, 0x0A#8, 0x12#8, 0x1A#8, 0x22#8, 0x2A#8, 0x32#8, 0x3A#8, 0x42#8, 0x03#8,
        0x04#8, 0x0C#8, 0x14#8, 0x1C#8, 0x05#8])

/-- The converse of the round trip: an accepted command is well-formed, its word is the encoder's word for it, and an ABSORB
carries the command's own `DIN` (R70 to R73). -/
def Obligations.DecodedCommandsReEncode : Prop :=
  ∀ (c : Command) (i : Instr), decode c = .ok i →
    i.wf = true ∧ (encode i).cmd = c.cmd ∧ (∀ n din, i = .absorb n din → din = c.din)

/-- The words of the table of R77 decode to the instructions they stand for. -/
def Obligations.OpcodeWordsDecode : Prop :=
  ∀ v : Lane,
    decode ⟨0x01, v⟩ = .ok .init ∧
    (∀ n : Nat, n ≤ 8 → decode ⟨BitVec.ofNat 8 (0x02 + 8 * n), v⟩ = .ok (.absorb (BitVec.ofNat 4 n) v)) ∧
    decode ⟨0x03, v⟩ = .ok .finalize ∧
    (∀ k : Nat, k ≤ 3 → decode ⟨BitVec.ofNat 8 (0x04 + 8 * k), v⟩ = .ok (.rddig (BitVec.ofNat 2 k))) ∧
    decode ⟨0x05, v⟩ = .ok .rdstat

/-- R73: what a command does depends on no byte of `DIN` but the first `n` of an ABSORB `n`; those are the bytes
`DIN[8j+7:8j]`, taken in the order `j = 0, ..., n-1`. -/
def Obligations.UnusedDinIsIgnored : Prop :=
  (∀ (cmd : BitVec 8) (d d' : Lane) (s : State),
    (∀ j : Nat, cmd.extractLsb' 0 3 = 0b010#3 → j < (cmd.extractLsb' 3 4).toNat → d.extractLsb' (8 * j) 8 = d'.extractLsb' (8 * j) 8) →
    acceptCommand ⟨cmd, d⟩ s = acceptCommand ⟨cmd, d'⟩ s) ∧
  (∀ (n : Nat) (d : Lane), n ≤ 8 →
    commandBytes ⟨BitVec.ofNat 8 (0x02 + 8 * n), d⟩ = (List.range n).map fun j => d.extractLsb' (8 * j) 8)

/-- R78: ABSORBB expands to legal ABSORBs that carry exactly the bytes given, in order: `floor(L/8)` of them with 8 bytes, and one
with `L mod 8` unless that is 0; and HASH puts INIT before them and FINALIZE and the four RDDIG after. -/
def Obligations.AbsorbbExpansionCarriesBytes : Prop :=
  ∀ bs : List Byte,
    messageOf ((expandAbsorbb bs).map encode) = bs ∧
    (∀ i ∈ expandAbsorbb bs, i.wf = true ∧ absorbs (encode i) = true) ∧
    (expandAbsorbb bs).map (fun i => (Instr.bytes i).length) =
      List.replicate (bs.length / 8) 8 ++ (if bs.length % 8 = 0 then [] else [bs.length % 8]) ∧
    AsmLine.commands (.hash bs) =
      [encode .init] ++ AsmLine.commands (.absorbb bs) ++
        [encode .finalize, encode (.rddig 0), encode (.rddig 1), encode (.rddig 2), encode (.rddig 3)]

/-! ### The step -/

/-- A step carries out the command the host presents, decoded, on the state as it was when the command was accepted (R10, R30); and
the word of `withFetchWord` is such a command. -/
def Obligations.StepRunsDecodedCommand : Prop :=
  (∀ (s : State) (c : Command) (rest : List HostEvent) (i : Instr),
    s.host = .command c :: rest → decode c = .ok i → step s = exec i { s with host := rest }) ∧
  (∀ (s : State) (nbits w : Nat) (i : Instr), decodeTableWord nbits w = some i → step (s.withFetchWord nbits w) = exec i s)

/-- R75: an illegal word, in any phase, changes nothing of the context or the phase and raises ILLEGAL_CMD; no word is an alias of
another; and ABSORB 0, the nearest thing to a no-op, errs outside ABSORBING. The clause on `faultRecord` is no rule's: that the model
records the first violation, with its code, is its own choice (log entry 4, DESIGN CHOICE). -/
def Obligations.IllegalWordRaisesIllegalCmd : Prop :=
  (∀ (s : State) (c : Command) (rest : List HostEvent),
    s.host = .command c :: rest → legal c.cmd = false →
    step s = .next
      { s with
        host := rest
        err := true
        errCode := if s.err then s.errCode else .illegalCmd
        faultRecord := s.faultRecord.or (some (.contractViolation .illegalCmd))
        rsp := some ⟨true, 0⟩ }) ∧
  (∀ (c c' : BitVec 8) (d : Lane) (i : Instr), decode ⟨c, d⟩ = .ok i → decode ⟨c', d⟩ = .ok i → c = c') ∧
  (∀ (s : State) (d : Lane), s.phase ≠ .absorbing → ∃ t, exec (.absorb 0 d) s = .next t ∧ t.rsp = some ⟨true, 0⟩ ∧ t.ctx = s.ctx)

/-- R230: a reset event gives every element its reset value and leaves no response; a command that a reset cuts off has no effect
and no response. That the host's further events and the fault record stay is no rule's: it is the model's own choice (log entry 5,
DESIGN CHOICE). -/
def Obligations.ResetEventRestoresResetValues : Prop :=
  ∀ (s : State) (rest : List HostEvent),
    let t : State :=
      { ctx := ⟨Vector.replicate 25 0, 0, 0, 0⟩, phase := .idle, err := false, errCode := .none, rsp := none,
        faultRecord := s.faultRecord, host := rest }
    (s.host = .reset :: rest → step s = .next t) ∧
    (∀ c, s.host = .resetDuring c :: rest → step s = .next t)

/-- R36: the value of every state element after reset. -/
def Obligations.ResetStateValues : Prop :=
  (∀ (i : Nat) (h : i < 25), State.reset.ctx.S[i] = 0) ∧
  State.reset.ctx.wordIndex = 0 ∧ State.reset.ctx.byteIndex = 0 ∧ State.reset.ctx.savedWord = 0 ∧
  State.reset.phase = .idle ∧ State.reset.err = false ∧ State.reset.errCode = .none ∧ State.reset.rsp = none ∧
  Phase.idle.code = 0 ∧ ErrCode.none.code = 0

/-- R231: after a reset event and after INIT the state differs in the phase alone (the response to INIT aside); so after reset ABSORB,
FINALIZE and RDDIG raise NOT_INITIALIZED. The two states are also equal in `faultRecord` and `host`, which rests on the model's own
choice that a reset event keeps them (log entry 5, DESIGN CHOICE), and on INIT keeping them (log entry 4). -/
def Obligations.ResetAndInitDifferOnlyInPhase : Prop :=
  ∀ s : State,
    (∃ t, exec .init s = .next t ∧ t.phase = .absorbing ∧ (resetEvent s).phase = .idle ∧
      { t with phase := .idle, rsp := none } = resetEvent s) ∧
    (∀ i : Instr, i.wf = true → i ≠ .init → i ≠ .rdstat →
      exec i (resetEvent s) = .next (cmdError .notInitialized (resetEvent s)))

/-! ### INIT and ABSORB -/

/-- R130: INIT, in every phase. (The fault record and the host's events, the model's own, stay: log entries 1 and 4.) -/
def Obligations.InitResult : Prop :=
  ∀ s : State,
    exec .init s = .next
      { ctx := ⟨Vector.replicate 25 0, 0, 0, 0⟩, phase := .absorbing, err := false, errCode := .none, rsp := some ⟨false, 0⟩,
        faultRecord := s.faultRecord, host := s.host }

/-- R131: `AbsorbByte`, case by case; and XOR and OR agree where the invariant of R28 holds. -/
def Obligations.AbsorbByteRule : Prop :=
  ∀ (c : HashContext) (b : Byte),
    let w : Lane := c.savedWord ^^^ (b.setWidth 64 <<< (8 * c.byteIndex.val))
    let S' : Lanes := c.S.set c.wordIndex.val (c.S[c.wordIndex.val] ^^^ w)
    (c.byteIndex.val < 7 → ∃ j : Fin 8, j.val = c.byteIndex.val + 1 ∧ absorbByte c b = ⟨c.S, c.wordIndex, j, w⟩) ∧
    (c.byteIndex.val = 7 → c.wordIndex.val < 16 →
      ∃ k : Fin 17, k.val = c.wordIndex.val + 1 ∧ absorbByte c b = ⟨S', k, 0, 0⟩) ∧
    (c.byteIndex.val = 7 → c.wordIndex.val = 16 → absorbByte c b = ⟨keccakF S', 0, 0, 0⟩) ∧
    (c.SavedClear → w = c.savedWord ||| (b.setWidth 64 <<< (8 * c.byteIndex.val)))

/-- R132: ABSORB `n` in every phase. In ABSORBING the bytes `DIN[8j+7:8j]` are absorbed in order, and nothing else changes but the
response; elsewhere, and for a count of 9 to 15, it is the error the rule names. -/
def Obligations.AbsorbResult : Prop :=
  ∀ (n : BitVec 4) (din : Lane) (s : State),
    (n.toNat ≤ 8 → s.phase = .absorbing →
      exec (.absorb n din) s = .next
        { s with
          ctx := ((List.range n.toNat).map fun j => din.extractLsb' (8 * j) 8).foldl absorbByte s.ctx
          rsp := some ⟨false, 0⟩ }) ∧
    (n.toNat ≤ 8 → s.phase = .idle → exec (.absorb n din) s = .next (cmdError .notInitialized s)) ∧
    (n.toNat ≤ 8 → s.phase = .finalized → exec (.absorb n din) s = .next (cmdError .absorbAfterFinalize s)) ∧
    (8 < n.toNat → exec (.absorb n din) s = .next (cmdError .illegalCmd s))

/-- What an ABSORB makes of the lane in progress, in closed form (R53, R131, R132): with `b = byteIndex` and `low = DIN[8n-1:0]`, the
bytes go in shifted left by `8b`; what does not fit the lane is the start of the next one. An ABSORB 8 into an empty lane
XORs exactly `DIN`. -/
def Obligations.AbsorbClosedForm : Prop :=
  ∀ (n : BitVec 4) (din : Lane) (s : State), n.toNat ≤ 8 → s.phase = .absorbing →
    let b := s.ctx.byteIndex.val
    let low : Lane := din &&& (BitVec.allOnes 64 >>> (64 - 8 * n.toNat))
    let w : Lane := s.ctx.savedWord ^^^ (low <<< (8 * b))
    let S' : Lanes := s.ctx.S.set s.ctx.wordIndex.val (s.ctx.S[s.ctx.wordIndex.val] ^^^ w)
    ∃ t, exec (.absorb n din) s = .next t ∧
      (b + n.toNat < 8 → t.ctx.S = s.ctx.S ∧ t.ctx.wordIndex = s.ctx.wordIndex ∧ t.ctx.byteIndex.val = b + n.toNat ∧ t.ctx.savedWord = w) ∧
      (8 ≤ b + n.toNat → t.ctx.byteIndex.val = b + n.toNat - 8 ∧ t.ctx.savedWord = low >>> (8 * (8 - b)) ∧
        (s.ctx.wordIndex.val < 16 → t.ctx.S = S' ∧ t.ctx.wordIndex.val = s.ctx.wordIndex.val + 1) ∧
        (s.ctx.wordIndex.val = 16 → t.ctx.S = keccakF S' ∧ t.ctx.wordIndex = 0)) ∧
      (n = 8 → b = 0 → s.ctx.savedWord = 0 → w = din)

/-- The frame of ABSORB (R132, R21): the phase never changes, nor the error state when the command does not err; and of the lanes,
when no block completes, only those completed by the command. -/
def Obligations.AbsorbFrame : Prop :=
  ∀ (n : BitVec 4) (din : Lane) (s t : State), exec (.absorb n din) s = .next t →
    t.phase = s.phase ∧ t.host = s.host ∧
    (t.rsp = some ⟨false, 0⟩ → t.err = s.err ∧ t.errCode = s.errCode ∧ t.faultRecord = s.faultRecord) ∧
    (8 * s.ctx.wordIndex.val + s.ctx.byteIndex.val + n.toNat < 136 →
      ∀ (i : Nat) (h : i < 25),
        (i < s.ctx.wordIndex.val ∨ s.ctx.wordIndex.val + (s.ctx.byteIndex.val + n.toNat) / 8 ≤ i) → t.ctx.S[i] = s.ctx.S[i])

/-- R132: an ABSORB triggers at most one permutation. -/
def Obligations.AbsorbRunsAtMostOnePermutation : Prop :=
  ∀ (c : HashContext) (n : BitVec 4) (din : Lane), n.toNat ≤ 8 → permutationsIn c (dataBytes din n.toNat) ≤ 1

/-- R133: the source's procedure leaves the same context as `AbsorbByte` over the bytes in order, from every context the invariant
of R28 admits and for data of any length. -/
def Obligations.SourceAbsorbIsByteAbsorb : Prop :=
  ∀ (c : HashContext) (data : List Byte), c.SavedClear → absorbSource c data = absorbBytes c data

/-- R134: the context after INIT and any legal ABSORBs with RDSTATs between them, and the digest after FINALIZE, depend only on the
bytes carried. -/
def Obligations.ChunkingInvariance : Prop :=
  ∀ (s s' : State) (cs cs' : List Command),
    (∀ c ∈ cs, absorbsOrReads c = true) → (∀ c ∈ cs', absorbsOrReads c = true) → messageOf cs = messageOf cs' →
    (runCommands ([encode .init] ++ cs) s).2.ctx = (runCommands ([encode .init] ++ cs') s').2.ctx ∧
    digestOf (runCommands ([encode .init] ++ cs ++ [encode .finalize]) s).2.ctx.S =
      digestOf (runCommands ([encode .init] ++ cs' ++ [encode .finalize]) s').2.ctx.S

/-- R135: after INIT and ABSORBs carrying `L` bytes in all, the indices, the partial lane and the number of permutations that have
run. -/
def Obligations.BookkeepingFollowsLength : Prop :=
  ∀ (s : State) (cs : List Command), (∀ c ∈ cs, absorbs c = true) →
    let m := messageOf cs
    let t := (runCommands ([encode .init] ++ cs) s).2
    t.ctx.wordIndex.val = m.length % 136 / 8 ∧
    t.ctx.byteIndex.val = m.length % 8 ∧
    t.ctx.savedWord = packLane (m.drop (m.length - m.length % 8)) ∧
    permutationsIn HashContext.zero m = m.length / 136

/-- R52: the bytes of a message lie in rate blocks of 136, the block's byte `q` in lane `q div 8` at bits `8*(q mod 8)`, each full block
followed by a permutation; with the partial lane XORed in, the state is that of the block in progress. -/
def Obligations.StreamBytesLandInRateBlocks : Prop :=
  (∀ (S : Lanes) (block : List Byte) (q : Nat) (hq : q < 136) (hb : q < block.length),
    (xorBlock S block)[q / 8].extractLsb' (8 * (q % 8)) 8 = S[q / 8].extractLsb' (8 * (q % 8)) 8 ^^^ block[q]) ∧
  (∀ m : List Byte,
    let c := absorbBytes HashContext.zero m
    xorLane c.S (rateLane c.wordIndex) c.savedWord =
      xorBlock (spongeBlocks (m.length / 136) HashContext.zero.S m) (m.drop (136 * (m.length / 136))))

/-- R34: a core that XORed each byte into `S` at once would show the same indices after every message and, once padded, hold the
same lanes before the final permutation; so it would give the same digest. -/
def Obligations.EagerAbsorptionGivesSameDigest : Prop :=
  ∀ m : List Byte,
    let c := absorbBytes HashContext.zero m
    let e := eagerBytes HashContext.zero m
    e.wordIndex = c.wordIndex ∧ e.byteIndex = c.byteIndex ∧ e.savedWord = 0 ∧ padLanes e = padLanes c ∧
    digestOf (finalizeContext e).S = digestOf (finalizeContext c).S

/-! ### FINALIZE, RDDIG and the digest -/

/-- R160: FINALIZE in every phase. In ABSORBING: both padding XORs, one after the other, the permutation, the bookkeeping zero. -/
def Obligations.FinalizeResult : Prop :=
  ∀ s : State,
    (s.phase = .absorbing →
      let S1 : Lanes := s.ctx.S.set s.ctx.wordIndex.val
        (s.ctx.S[s.ctx.wordIndex.val] ^^^ s.ctx.savedWord ^^^ (1 <<< (8 * s.ctx.byteIndex.val)))
      let S2 : Lanes := S1.set 16 (S1[16] ^^^ 0x8000000000000000)
      exec .finalize s = .next { s with ctx := ⟨keccakF S2, 0, 0, 0⟩, phase := .finalized, rsp := some ⟨false, 0⟩ }) ∧
    (s.phase = .idle → exec .finalize s = .next (cmdError .notInitialized s)) ∧
    (s.phase = .finalized → exec .finalize s = .next (cmdError .finalizeAfterFinalize s))

/-- R162: the two padding XORs fall in the same lane exactly when `wordIndex = 16`, in the same byte exactly when also `byteIndex = 7`,
where that byte is XORed with 0x81 (as the partial lane is clear there, R28), and never in the same bit. -/
def Obligations.PaddingXorsNeverCancel : Prop :=
  ∀ c : HashContext,
    let first : Lane := 1 <<< (8 * c.byteIndex.val)
    let second : Lane := 0x8000000000000000
    first &&& second = 0 ∧
    ((∃ j : Nat, j < 8 ∧ first.extractLsb' (8 * j) 8 ≠ 0 ∧ second.extractLsb' (8 * j) 8 ≠ 0) ↔ c.byteIndex.val = 7) ∧
    (c.wordIndex.val = 16 → (padLanes c)[16] = c.S[16] ^^^ c.savedWord ^^^ first ^^^ second) ∧
    (c.wordIndex.val ≠ 16 →
      (padLanes c)[c.wordIndex.val] = c.S[c.wordIndex.val] ^^^ c.savedWord ^^^ first ∧ (padLanes c)[16] = c.S[16] ^^^ second) ∧
    (∀ (i : Nat) (h : i < 25), i ≠ 16 → i ≠ c.wordIndex.val → (padLanes c)[i] = c.S[i]) ∧
    (c.wordIndex.val = 16 → c.byteIndex.val = 7 → c.SavedClear →
      (padLanes c)[16].extractLsb' 56 8 = c.S[16].extractLsb' 56 8 ^^^ 0x81)

/-- R161: the lanes the final permutation acts on are those of the last block, the last `q` message bytes followed by the padding; and
the padded message has a length that is a multiple of 136. -/
def Obligations.PaddingIsPad10Star1 : Prop :=
  ∀ m : List Byte,
    padLanes (absorbBytes HashContext.zero m) =
      xorBlock (spongeBlocks (m.length / 136) HashContext.zero.S m)
        (m.drop (136 * (m.length / 136)) ++
          (if m.length % 136 = 135 then [0x81] else [0x01] ++ List.replicate (134 - m.length % 136) 0x00 ++ [0x80])) ∧
    (padding (m.length % 136)).length = 136 - m.length % 136 ∧
    (padMessage m).length % 136 = 0

/-- The main result: whatever commands stand between an INIT and a FINALIZE, as long as none of them is itself an INIT or a FINALIZE
(illegal words and early digest reads among them, whose errors change no context, R204), the core ends in FINALIZED with the
Keccak-256 digest of the bytes the ABSORBs carried, from every start state (R130 to R135, R160, R161, R166, R54). -/
def Obligations.HashIsKeccak256 : Prop :=
  ∀ (s : State) (body : List Command), (∀ c ∈ body, startsOrEnds c = false) →
    let t := (runCommands ([encode .init] ++ body ++ [encode .finalize]) s).2
    t.phase = .finalized ∧ digestOf t.ctx.S = keccak256 (messageOf body)

/-- R166: the one-shot hash as the host sees it: INIT, any legal ABSORBs carrying the data, FINALIZE, RDDIG 0 to 3. No response errs, all
`DOUT` but the last four are 0, and the last four, written low byte first, are the Keccak-256 digest. -/
def Obligations.OneShotHashResponses : Prop :=
  ∀ (s : State) (body : List Command), (∀ c ∈ body, absorbs c = true) →
    let rs := (runCommands
      ([encode .init] ++ body ++ [encode .finalize, encode (.rddig 0), encode (.rddig 1), encode (.rddig 2), encode (.rddig 3)]) s).1
    wellBehaved rs = true ∧ rs.length = body.length + 6 ∧
    (∀ r ∈ rs.take (body.length + 2), r.dout = 0) ∧
    (rs.drop (body.length + 2)).flatMap (fun r => laneBytes r.dout) = keccak256 (messageOf body)

/-- R163 and R54: RDDIG `k` in every phase; in FINALIZED it answers `S[k]`, whose bytes are digest bytes `8k` to `8k+7`, low byte first,
and changes nothing but the response. -/
def Obligations.RddigResult : Prop :=
  ∀ (k : BitVec 2) (s : State),
    (s.phase = .finalized →
      exec (.rddig k) s = .next { s with rsp := some ⟨false, s.ctx.S[k.toNat]'(by have := k.isLt; omega)⟩ }) ∧
    (∀ j : Nat, j < 8 →
      (digestOf s.ctx.S)[8 * k.toNat + j]? = some ((s.ctx.S[k.toNat]'(by have := k.isLt; omega)).extractLsb' (8 * j) 8)) ∧
    (s.phase = .idle → exec (.rddig k) s = .next (cmdError .notInitialized s)) ∧
    (s.phase = .absorbing → exec (.rddig k) s = .next (cmdError .digestNotReady s))

/-- R164: in FINALIZED only INIT and reset change `S`; any other step leaves it, and the phase. -/
def Obligations.DigestStableUntilInitOrReset : Prop :=
  ∀ s t : State, s.phase = .finalized → step s = .next t →
    (∀ rest, s.host ≠ .reset :: rest) → (∀ c rest, s.host ≠ .resetDuring c :: rest) →
    (∀ c rest, s.host = .command c :: rest → decode c ≠ .ok .init) →
    t.ctx.S = s.ctx.S ∧ t.phase = .finalized

/-- R24, R34, D14: two states the host cannot tell apart by their lanes and their partial lane. Outside FINALIZED no response depends
on any lane or on `savedWord`; in FINALIZED none depends on `savedWord` or on lanes 4 to 24. -/
def Obligations.LanesAreHiddenFromHost : Prop :=
  ∀ (s : State) (S' : Lanes) (w' : Lane) (c : Command),
    (s.phase = .finalized → ∀ (i : Nat) (h : i < 4), S'[i] = s.ctx.S[i]) →
    ∃ t t', acceptCommand c s = .next t ∧
      acceptCommand c { s with ctx := { s.ctx with S := S', savedWord := w' } } = .next t' ∧ t'.rsp = t.rsp

/-! ### RDSTAT, responses and flags -/

/-- R180: RDSTAT answers the status word of the current state, in every phase, and changes nothing but the response. -/
def Obligations.RdstatResult : Prop :=
  ∀ s : State, exec .rdstat s = .next { s with rsp := some ⟨false, statusWord s⟩ }

/-- R32: the layout of the status word, field by field, its reserved bits, the numbers of the phases (R25) and of the error codes (R201), and
its value after reset and right after INIT. -/
def Obligations.StatusWordLayout : Prop :=
  (∀ s : State,
    (statusWord s).extractLsb' 0 5 = BitVec.ofNat 5 s.ctx.wordIndex.val ∧
    (statusWord s).extractLsb' 5 3 = BitVec.ofNat 3 s.ctx.byteIndex.val ∧
    (statusWord s).extractLsb' 8 2 = s.phase.code ∧
    (statusWord s).getLsbD 10 = s.err ∧
    (statusWord s).extractLsb' 11 5 = 0 ∧
    (statusWord s).extractLsb' 16 3 = s.errCode.code ∧
    (statusWord s).extractLsb' 19 45 = 0) ∧
  Phase.idle.code = 0 ∧ Phase.absorbing.code = 1 ∧ Phase.finalized.code = 2 ∧
  ErrCode.none.code = 0 ∧ ErrCode.illegalCmd.code = 1 ∧ ErrCode.notInitialized.code = 2 ∧ ErrCode.absorbAfterFinalize.code = 3 ∧
  ErrCode.finalizeAfterFinalize.code = 4 ∧ ErrCode.digestNotReady.code = 5 ∧
  statusWord State.reset = 0 ∧
  (∀ s t, exec .init s = .next t → statusWord t = 0x0000000000000100)

/-- R31: every command carried out gets one response. `RSP_ERR` is 1 exactly if the command raised an error (its word is illegal, or the
table of R202 has a code); `DOUT` is 0 for INIT, ABSORB, FINALIZE and every erring command, the digest lane for RDDIG, the status word
for RDSTAT. -/
def Obligations.OneResponsePerCommand : Prop :=
  ∀ (s : State) (c : Command) (rest : List HostEvent), s.host = .command c :: rest →
    ∃ t r, step s = .next t ∧ t.rsp = some r ∧
      (r.err = true ↔ ∀ i, decode c = .ok i → legality i s.phase ≠ none) ∧
      (r.err = true → r.dout = 0) ∧
      (∀ i, decode c = .ok i → (∀ k, i ≠ .rddig k) → i ≠ .rdstat → r.dout = 0) ∧
      (∀ k, decode c = .ok (.rddig k) → r.err = false → r.dout = digestLane s.ctx.S k) ∧
      (decode c = .ok .rdstat → r.dout = statusWord s)

/-- R202 and R203: the legality of every command in every phase. An illegal word raises ILLEGAL_CMD whatever the phase; a legal one raises
the code the table has for it, or, where the table says ok, runs without an error. -/
def Obligations.LegalityTableHolds : Prop :=
  ∀ (c : Command) (s : State),
    (legal c.cmd = false → acceptCommand c s = .next (cmdError .illegalCmd s)) ∧
    (∀ i, decode c = .ok i →
      (∀ code, legality i s.phase = some code → acceptCommand c s = .next (cmdError code s)) ∧
      (legality i s.phase = none → ∃ t d, acceptCommand c s = .next t ∧ t.rsp = some ⟨false, d⟩ ∧
        (i ≠ .init → t.err = s.err ∧ t.errCode = s.errCode)))

/-- R204 and R205: what a command error leaves; and whatever the command, if its response says it erred, the context and the phase are
as before, `err` is 1, and `errCode` holds the first error's code. The clause on `faultRecord` is no rule's: the record, with the code, is
the model's own choice (log entry 4, DESIGN CHOICE). -/
def Obligations.CmdErrorEffect : Prop :=
  (∀ (code : ErrCode) (s : State),
    cmdError code s =
      { s with
        err := true
        errCode := if s.err = false then code else s.errCode
        faultRecord := s.faultRecord.or (some (.contractViolation code))
        rsp := some ⟨true, 0⟩ }) ∧
  (∀ (s t : State) (c : Command) (rest : List HostEvent) (d : Lane),
    s.host = .command c :: rest → step s = .next t → t.rsp = some ⟨true, d⟩ →
    d = 0 ∧ t.ctx = s.ctx ∧ t.phase = s.phase ∧ t.err = true ∧
    (s.err = false → t.errCode ≠ .none) ∧ (s.err = true → t.errCode = s.errCode))

/-- R206: only INIT and reset clear `err` and `errCode`, and both do; while `err = 1` every command still completes. -/
def Obligations.ErrorClearedOnlyByInitOrReset : Prop :=
  ∀ s t : State, s.err = true → step s = .next t →
    (t.err = true ∧ t.errCode = s.errCode) ∨
    (t.err = false ∧ t.errCode = .none ∧
      ((∃ rest, s.host = .reset :: rest) ∨ (∃ c rest, s.host = .resetDuring c :: rest) ∨
        (∃ c rest, s.host = .command c :: rest ∧ decode c = .ok .init)))

/-- R37, R206: no command's effect on the context or the phase depends on the error state, nor does the response of any but RDSTAT,
which reports it. -/
def Obligations.ErrorStateDoesNotChangeResults : Prop :=
  ∀ (c : Command) (s : State) (e : Bool) (k : ErrCode),
    ∃ t t', acceptCommand c s = .next t ∧ acceptCommand c { s with err := e, errCode := k } = .next t' ∧
      t'.ctx = t.ctx ∧ t'.phase = t.phase ∧ (decode c ≠ .ok .rdstat → t'.rsp = t.rsp)

/-- R25, R37: what changes the phase: reset to IDLE, INIT to ABSORBING, FINALIZE from ABSORBING to FINALIZED; nothing else. -/
def Obligations.PhaseChangesOnlyByResetInitFinalize : Prop :=
  ∀ s t : State, step s = .next t →
    t.phase = s.phase ∨
    (t.phase = .idle ∧ ((∃ rest, s.host = .reset :: rest) ∨ (∃ c rest, s.host = .resetDuring c :: rest))) ∨
    (t.phase = .absorbing ∧ ∃ c rest, s.host = .command c :: rest ∧ decode c = .ok .init) ∨
    (s.phase = .absorbing ∧ t.phase = .finalized ∧ ∃ c rest, s.host = .command c :: rest ∧ decode c = .ok .finalize)

/-- R58: RDDIG and RDSTAT that do not err have no side effect and answer the same again; ABSORB 0 in ABSORBING changes nothing; two
FINALIZEs are not one, the second errs. -/
def Obligations.ReadsAndEmptyAbsorbChangeNothing : Prop :=
  ∀ s : State,
    (∀ k, s.phase = .finalized → ∃ t, exec (.rddig k) s = .next t ∧ { t with rsp := s.rsp } = s ∧ exec (.rddig k) t = .next t) ∧
    (∃ t, exec .rdstat s = .next t ∧ { t with rsp := s.rsp } = s ∧ exec .rdstat t = .next t) ∧
    (∀ din, s.phase = .absorbing → ∃ t, exec (.absorb 0 din) s = .next t ∧ { t with rsp := s.rsp } = s) ∧
    (s.phase = .absorbing → ∃ t u, exec .finalize s = .next t ∧ exec .finalize t = .next u ∧ u.rsp = some ⟨true, 0⟩ ∧ u.ctx = t.ctx)

/-! ### Invariants and whole-machine rules -/

/-- R200: the core never stops. Every state has a next state: no fault, no refusal. -/
def Obligations.EveryStepAnswersNext : Prop := ∀ s : State, ∃ t, step s = .next t

/-- R28: every step keeps the invariants, from every state that meets them. -/
def Obligations.StepKeepsInvariants : Prop := ∀ s t : State, s.Inv → step s = .next t → t.Inv

/-- R28: the invariants hold after reset. -/
def Obligations.ResetMeetsInvariants : Prop := State.reset.Inv

/-- 93 U1, the model's own record (log entry 4): it is never lost, and after a step with an erring response there is one; so an error
that stands is recorded. -/
def Obligations.FaultRecordIsNeverLost : Prop :=
  ∀ s t : State, step s = .next t →
    (∀ f, s.faultRecord = some f → t.faultRecord = some f) ∧
    (∀ c rest d, s.host = .command c :: rest → t.rsp = some ⟨true, d⟩ → t.faultRecord ≠ none) ∧
    (s.FaultRecorded → t.FaultRecorded)

/-- R21, R110: an accepted command runs the permutation at most once. When it runs none and is not INIT, the capacity lanes 17 to 24 are as
before. When it runs one, all 25 lanes are `KeccakF` of `X`, where `X` is the padded lanes (FINALIZE) or the lanes with the 17th lane of
the block completed (ABSORB, whose bytes `DIN[8n-1:0]` complete it), and the capacity lanes of `X` are as before. -/
def Obligations.CapacityChangesOnlyByPermutation : Prop :=
  ∀ (c : Command) (s t : State), acceptCommand c s = .next t →
    commandPermutations c s ≤ 1 ∧
    (commandPermutations c s = 0 → decode c ≠ .ok .init → ∀ (i : Nat) (h : i < 25), 17 ≤ i → t.ctx.S[i] = s.ctx.S[i]) ∧
    (commandPermutations c s = 1 →
      ∃ X : Lanes, t.ctx.S = keccakF X ∧ (∀ (i : Nat) (h : i < 25), 17 ≤ i → X[i] = s.ctx.S[i]) ∧
        ((decode c = .ok .finalize ∧ X = padLanes s.ctx) ∨
         (∃ n din, decode c = .ok (.absorb n din) ∧ s.ctx.wordIndex.val = 16 ∧ 8 ≤ s.ctx.byteIndex.val + n.toNat ∧
          X = xorLane s.ctx.S (rateLane s.ctx.wordIndex)
            (s.ctx.savedWord ^^^ ((din &&& (BitVec.allOnes 64 >>> (64 - 8 * n.toNat))) <<< (8 * s.ctx.byteIndex.val))))))

/-- R165: hashing a message of `L` bytes runs exactly `floor(L/136) + 1` permutations, from every start state. -/
def Obligations.HashRunsPermutationsLinearInLength : Prop :=
  ∀ (s : State) (body : List Command), (∀ c ∈ body, absorbs c = true) →
    runPermutations ([encode .init] ++ body ++ [encode .finalize]) s = (messageOf body).length / 136 + 1

/-- R59, R236: commands take effect one at a time, in order, each on the state the ones before it left; so a run in two parts is the first
part and then the second on the state it left, and it is what the machine's own steps do when the host has the events to issue. -/
def Obligations.RunsAreSequential : Prop :=
  (∀ (es fs : List HostEvent) (s : State),
    runEvents (es ++ fs) s =
      ((runEvents es s).1 ++ (runEvents fs (runEvents es s).2).1, (runEvents fs (runEvents es s).2).2)) ∧
  (∀ (es : List HostEvent) (s : State),
    Host.Core.run Sys2Proof.core es.length (s.withHost es) = .next ((runEvents es s).2.withHost []))

/-! ### The permutation -/

/-- R100: `KeccakF` is a bijection on the 1600-bit state, the 24 rounds in order. -/
def Obligations.KeccakFIsBijection : Prop :=
  Function.Bijective keccakF ∧
  (∀ S : Lanes, keccakF S = (List.range 24).foldl (fun A ir => keccakRound A (roundConstants.getD ir 0)) S)

/-- R103: Theta lane by lane, the left column unrotated and the right column rotated by 1; a state whose column parities are all 0 is
unchanged. -/
def Obligations.ThetaRule : Prop :=
  ∀ S : Lanes,
    let C : Fin 5 → Lane := fun x => S[x.val] ^^^ S[x.val + 5] ^^^ S[x.val + 10] ^^^ S[x.val + 15] ^^^ S[x.val + 20]
    (∀ x y : Fin 5, (theta S)[x.val + 5 * y.val] = S[x.val + 5 * y.val] ^^^ (C (x + 4) ^^^ (C (x + 1)).rotateLeft 1)) ∧
    ((∀ x, C x = 0) → theta S = S)

/-- R104 and R105: the single pass moves lane `x + 5y`, rotated by `r[x + 5y]`, to lane `y + 5((2x + 3y) mod 5)`; and it is the lane by
lane form. -/
def Obligations.RhoPiFormsAgree : Prop :=
  ∀ S : Lanes,
    rhoPi S = rhoPiByLane S ∧
    (∀ x y : Fin 5,
      (rhoPi S)[y.val + 5 * ((2 * x.val + 3 * y.val) % 5)] = (S[x.val + 5 * y.val]).rotateLeft rotOf[x.val + 5 * y.val])

/-- R106: Chi lane by lane, every term from the row before Chi; an all-zero row and an all-ones row are unchanged. -/
def Obligations.ChiRule : Prop :=
  ∀ (S : Lanes) (y : Fin 5),
    (∀ x : Fin 5, (chi S)[x.val + 5 * y.val] =
      S[x.val + 5 * y.val] ^^^ (~~~ S[(x + 1).val + 5 * y.val] &&& S[(x + 2).val + 5 * y.val])) ∧
    ((∀ x : Fin 5, S[x.val + 5 * y.val] = 0) → ∀ x : Fin 5, (chi S)[x.val + 5 * y.val] = 0) ∧
    ((∀ x : Fin 5, S[x.val + 5 * y.val] = BitVec.allOnes 64) → ∀ x : Fin 5, (chi S)[x.val + 5 * y.val] = BitVec.allOnes 64)

/-- R107 and R108: Iota changes lane 0 alone; the 24 constants are those of the closed form, and only bits 0, 1, 3, 7, 15, 31 and 63 of
any of them can be 1. -/
def Obligations.IotaAndRoundConstants : Prop :=
  (∀ (S : Lanes) (rc : Lane) (i : Nat) (h : i < 25), (iota S rc)[i] = if i = 0 then S[0] ^^^ rc else S[i]) ∧
  roundConstants = (List.range 24).map rcClosedForm ∧
  (∀ rc ∈ roundConstants, ∀ b : Nat, b < 64 → rc.getLsbD b = true → b ∈ [0, 1, 3, 7, 15, 31, 63])

/-- R9 and R109: the rotation as shifts, and where it moves each bit; the complement of 0. -/
def Obligations.RotationMovesBits : Prop :=
  (∀ v : Lane, rotl64 v 0 = v) ∧
  (∀ (v : Lane) (n : Nat), 1 ≤ n → n ≤ 63 → rotl64 v n = (v <<< n) ||| (v >>> (64 - n))) ∧
  (∀ (v : Lane) (n b : Nat), 1 ≤ n → n ≤ 63 → b < 64 → (rotl64 v n).getLsbD ((b + n) % 64) = v.getLsbD b) ∧
  (~~~ (0 : Lane) = 0xFFFFFFFFFFFFFFFF)

/-- R102's corner case and order: a round is Theta, then Rho and Pi, then Chi, then Iota; from the all-zero state, round 0 leaves 1 in lane
0 and 0 elsewhere, because the first three map zero to zero. -/
def Obligations.RoundOrderAndZeroRound : Prop :=
  (∀ (S : Lanes) (rc : Lane), keccakRound S rc = iota (chi (rhoPi (theta S))) rc) ∧
  (let Z : Lanes := Vector.replicate 25 0
   theta Z = Z ∧ rhoPi Z = Z ∧ chi Z = Z ∧ ∀ rc : Lane, keccakRound Z rc = Z.set 0 rc)

/-! ### Error codes and repeated commands -/

/-- R201, by number: from a state without an error, the code STATUS[18:16] shows after a command, for every cause of the table and for the
commands that do not err; 6 and 7 never occur; an error records no further value (what `faultRecord` holds is the model's own,
log entry 4); and a later error leaves the code. -/
def Obligations.ErrorCodesFollowTheTable : Prop :=
  (∀ (c : Command) (s t : State), s.err = false → s.errCode = .none → acceptCommand c s = .next t →
    (statusWord t).extractLsb' 16 3 =
      (match decode c with
       | .error _ => 1#3
       | .ok .init => 0#3
       | .ok (.absorb _ _) => if s.phase = .idle then 2#3 else if s.phase = .finalized then 3#3 else 0#3
       | .ok .finalize => if s.phase = .idle then 2#3 else if s.phase = .finalized then 4#3 else 0#3
       | .ok (.rddig _) => if s.phase = .idle then 2#3 else if s.phase = .absorbing then 5#3 else 0#3
       | .ok .rdstat => 0#3) ∧
    (t.err = true → t = { s with err := true, errCode := t.errCode, rsp := some ⟨true, 0⟩, faultRecord := t.faultRecord })) ∧
  (∀ (c : Command) (s t : State), s.err = true → decode c ≠ .ok .init → acceptCommand c s = .next t →
    (statusWord t).extractLsb' 16 3 = (statusWord s).extractLsb' 16 3) ∧
  (∀ k : ErrCode, k.code.toNat ≤ 5)

/-- R58 of the commands that change state: an ABSORB of 1 to 8 bytes changes the context each time it runs; FINALIZE changes the phase
and its second run errs. Of INIT, R58 and R130 say opposite things (log entry 12): the clause here is R130's, two INITs leave the state
of one. -/
def Obligations.RepeatedStateChangingCommands : Prop :=
  ∀ s : State,
    (∀ (n : BitVec 4) (din : Lane), 1 ≤ n.toNat → n.toNat ≤ 8 → s.phase = .absorbing →
      ∃ t u, exec (.absorb n din) s = .next t ∧ exec (.absorb n din) t = .next u ∧ t.ctx ≠ s.ctx ∧ u.ctx ≠ t.ctx) ∧
    (s.phase = .absorbing →
      ∃ t u, exec .finalize s = .next t ∧ exec .finalize t = .next u ∧ t.phase = .finalized ∧ t.rsp = some ⟨false, 0⟩ ∧
        u.rsp = some ⟨true, 0⟩ ∧ u.err = true ∧ u.ctx = t.ctx) ∧
    (∃ t, exec .init s = .next t ∧ exec .init t = .next t)
end

