-- ==== Sys2Proof/Laws/Keccak.lean ====
section
/-! SUPPORT. What each step of a round leaves in one lane, in the terms of its definition; later proofs cite these and unfold no step. -/

namespace Sys2Proof.Machine

@[simp] theorem thetaC_getElem (S : Lanes) (x : Nat) (h : x < 5) :
    (thetaC S)[x] = laneAt S ⟨x, h⟩ 0 ^^^ laneAt S ⟨x, h⟩ 1 ^^^ laneAt S ⟨x, h⟩ 2 ^^^ laneAt S ⟨x, h⟩ 3 ^^^ laneAt S ⟨x, h⟩ 4 := by
  simp [thetaC]

theorem thetaD_getElem (S : Lanes) (x : Nat) (h : x < 5) :
    (thetaD S)[x] = (thetaC S)[(⟨x, h⟩ + 4 : Fin 5)] ^^^ rotl64 (thetaC S)[(⟨x, h⟩ + 1 : Fin 5)] 1 := by
  simp [thetaD]

theorem theta_getElem (S : Lanes) (i : Nat) (h : i < 25) : (theta S)[i] = S[i] ^^^ (thetaD S)[xOf ⟨i, h⟩] := by
  simp [theta]

theorem chi_getElem (S : Lanes) (i : Nat) (h : i < 25) :
    (chi S)[i] = S[i] ^^^ (~~~ (laneAt S (xOf ⟨i, h⟩ + 1) (yOf ⟨i, h⟩)) &&& laneAt S (xOf ⟨i, h⟩ + 2) (yOf ⟨i, h⟩)) := by
  simp [chi]

/-- One step of the pass: the lane it writes, the lanes it leaves, and the lane it carries on. -/
theorem rhoPiStep_spec (p : Lanes × Lane) (e : Fin 25 × Nat) :
    (rhoPiStep p e).1 = p.1.set e.1 (rotl64 p.2 e.2) ∧ (rhoPiStep p e).2 = p.1[e.1] := ⟨rfl, rfl⟩

@[simp] theorem roundConstants_length : roundConstants.length = 24 := rfl

/-- `RC[ir]` stands in row `ir mod 12` of the table, in the left column for `ir < 12` and in the right one from there on. -/
theorem roundConstants_getElem? (ir : Nat) :
    roundConstants[ir]? =
      if ir < 12 then (constantRows[ir]?).map Prod.fst else (constantRows[ir - 12]?).map Prod.snd := by
  have h : (constantRows.map Prod.fst).length = 12 := rfl
  rw [roundConstants, List.getElem?_append, h, List.getElem?_map, List.getElem?_map]

theorem keccakRound_eq (S : Lanes) (rc : Lane) : keccakRound S rc = iota (chi (rhoPi (theta S))) rc := rfl

theorem keccakF_eq (S : Lanes) : keccakF S = roundConstants.foldl keccakRound S := by
  unfold keccakF; rfl

/-- The row and column of a lane's index give the index back. -/
theorem xOf_add_yOf (i : Fin 25) : (xOf i).val + 5 * (yOf i).val = i.val := by
  simp only [xOf, yOf]; omega

end Sys2Proof.Machine
end

