-- ==== Sys2Proof/Laws/Operands.lean ====
section
/-! SUPPORT. The small laws of bytes, packing and rotation. -/

namespace Sys2Proof.Machine

@[simp] theorem dataBytes_length (v : Lane) (n : Nat) : (dataBytes v n).length = n := by simp [dataBytes]

@[simp] theorem dataBytes_zero (v : Lane) : dataBytes v 0 = [] := rfl

/-- One more byte of data comes last. -/
theorem dataBytes_succ (v : Lane) (n : Nat) : dataBytes v (n + 1) = dataBytes v n ++ [byteOf v n] := by
  simp [dataBytes, List.range_succ]

theorem dataBytes_getElem (v : Lane) (n j : Nat) (h : j < (dataBytes v n).length) : (dataBytes v n)[j] = byteOf v j := by
  simp [dataBytes]

@[simp] theorem packLane_nil : packLane [] = 0 := rfl

theorem packLane_cons (b : Byte) (bs : List Byte) : packLane (b :: bs) = zext64 b ^^^ (packLane bs <<< 8) := rfl

@[simp] theorem laneBytes_length (v : Lane) : (laneBytes v).length = 8 := by simp [laneBytes]

@[simp] theorem digestOf_length (S : Lanes) : (digestOf S).length = 32 := by simp [digestOf]

/-- Bit `i` of byte `j` is bit `8j + i` of the value (R7). -/
theorem byteOf_getLsbD (v : Lane) (j i : Nat) (h : i < 8) : (byteOf v j).getLsbD i = v.getLsbD (8 * j + i) := by
  simp [byteOf, h]

theorem zext64_getLsbD (b : Byte) (i : Nat) : (zext64 b).getLsbD i = b.getLsbD i := by
  simp only [zext64, BitVec.getLsbD_setWidth]
  by_cases h : i < 64
  · simp [h]
  · simp [h, BitVec.getLsbD_of_ge b i (by omega)]

end Sys2Proof.Machine
end

