-- ==== Sys2Proof/Laws/State.lean ====
section
/-! SUPPORT. One lemma per field per update of the state, each true by unfolding, so that no proof unfolds a record update. -/

namespace Sys2Proof.Machine

/-! ### `State.withCtx` -/

@[simp] theorem State.withCtx_ctx (s : State) (c : HashContext) : (s.withCtx c).ctx = c := rfl
@[simp] theorem State.withCtx_phase (s : State) (c : HashContext) : (s.withCtx c).phase = s.phase := rfl
@[simp] theorem State.withCtx_err (s : State) (c : HashContext) : (s.withCtx c).err = s.err := rfl
@[simp] theorem State.withCtx_errCode (s : State) (c : HashContext) : (s.withCtx c).errCode = s.errCode := rfl
@[simp] theorem State.withCtx_rsp (s : State) (c : HashContext) : (s.withCtx c).rsp = s.rsp := rfl
@[simp] theorem State.withCtx_faultRecord (s : State) (c : HashContext) : (s.withCtx c).faultRecord = s.faultRecord := rfl
@[simp] theorem State.withCtx_host (s : State) (c : HashContext) : (s.withCtx c).host = s.host := rfl

/-! ### `State.respond` -/

@[simp] theorem State.respond_ctx (s : State) (e : Bool) (d : Lane) : (s.respond e d).ctx = s.ctx := rfl
@[simp] theorem State.respond_phase (s : State) (e : Bool) (d : Lane) : (s.respond e d).phase = s.phase := rfl
@[simp] theorem State.respond_err (s : State) (e : Bool) (d : Lane) : (s.respond e d).err = s.err := rfl
@[simp] theorem State.respond_errCode (s : State) (e : Bool) (d : Lane) : (s.respond e d).errCode = s.errCode := rfl
@[simp] theorem State.respond_rsp (s : State) (e : Bool) (d : Lane) : (s.respond e d).rsp = some ⟨e, d⟩ := rfl
@[simp] theorem State.respond_faultRecord (s : State) (e : Bool) (d : Lane) : (s.respond e d).faultRecord = s.faultRecord := rfl
@[simp] theorem State.respond_host (s : State) (e : Bool) (d : Lane) : (s.respond e d).host = s.host := rfl

/-! ### `State.withHost` -/

@[simp] theorem State.withHost_ctx (s : State) (h : List HostEvent) : (s.withHost h).ctx = s.ctx := rfl
@[simp] theorem State.withHost_phase (s : State) (h : List HostEvent) : (s.withHost h).phase = s.phase := rfl
@[simp] theorem State.withHost_err (s : State) (h : List HostEvent) : (s.withHost h).err = s.err := rfl
@[simp] theorem State.withHost_errCode (s : State) (h : List HostEvent) : (s.withHost h).errCode = s.errCode := rfl
@[simp] theorem State.withHost_rsp (s : State) (h : List HostEvent) : (s.withHost h).rsp = s.rsp := rfl
@[simp] theorem State.withHost_faultRecord (s : State) (h : List HostEvent) : (s.withHost h).faultRecord = s.faultRecord := rfl
@[simp] theorem State.withHost_host (s : State) (h : List HostEvent) : (s.withHost h).host = h := rfl

/-! ### `State.recordError` -/

@[simp] theorem State.recordError_ctx (s : State) (k : ErrCode) : (s.recordError k).ctx = s.ctx := rfl
@[simp] theorem State.recordError_phase (s : State) (k : ErrCode) : (s.recordError k).phase = s.phase := rfl
@[simp] theorem State.recordError_err (s : State) (k : ErrCode) : (s.recordError k).err = true := rfl
@[simp] theorem State.recordError_errCode (s : State) (k : ErrCode) : (s.recordError k).errCode = s.errCodeAfter k := rfl
@[simp] theorem State.recordError_rsp (s : State) (k : ErrCode) : (s.recordError k).rsp = s.rsp := rfl
@[simp] theorem State.recordError_faultRecord (s : State) (k : ErrCode) : (s.recordError k).faultRecord = s.faultAfter k := rfl
@[simp] theorem State.recordError_host (s : State) (k : ErrCode) : (s.recordError k).host = s.host := rfl

/-! ### `cmdError` (R204) -/

@[simp] theorem cmdError_ctx (k : ErrCode) (s : State) : (cmdError k s).ctx = s.ctx := rfl
@[simp] theorem cmdError_phase (k : ErrCode) (s : State) : (cmdError k s).phase = s.phase := rfl
@[simp] theorem cmdError_err (k : ErrCode) (s : State) : (cmdError k s).err = true := rfl
@[simp] theorem cmdError_errCode (k : ErrCode) (s : State) : (cmdError k s).errCode = s.errCodeAfter k := rfl
@[simp] theorem cmdError_rsp (k : ErrCode) (s : State) : (cmdError k s).rsp = some ⟨true, 0⟩ := rfl
@[simp] theorem cmdError_faultRecord (k : ErrCode) (s : State) : (cmdError k s).faultRecord = s.faultAfter k := rfl
@[simp] theorem cmdError_host (k : ErrCode) (s : State) : (cmdError k s).host = s.host := rfl

/-! ### `resetEvent` (R230) -/

@[simp] theorem resetEvent_ctx (s : State) : (resetEvent s).ctx = HashContext.zero := rfl
@[simp] theorem resetEvent_phase (s : State) : (resetEvent s).phase = .idle := rfl
@[simp] theorem resetEvent_err (s : State) : (resetEvent s).err = false := rfl
@[simp] theorem resetEvent_errCode (s : State) : (resetEvent s).errCode = .none := rfl
@[simp] theorem resetEvent_rsp (s : State) : (resetEvent s).rsp = none := rfl
@[simp] theorem resetEvent_faultRecord (s : State) : (resetEvent s).faultRecord = s.faultRecord := rfl
@[simp] theorem resetEvent_host (s : State) : (resetEvent s).host = s.host := rfl

/-! ### `presentCommand` and `withFetchWord` -/

@[simp] theorem presentCommand_ctx (c : Command) (s : State) : (presentCommand c s).ctx = s.ctx := rfl
@[simp] theorem presentCommand_phase (c : Command) (s : State) : (presentCommand c s).phase = s.phase := rfl
@[simp] theorem presentCommand_err (c : Command) (s : State) : (presentCommand c s).err = s.err := rfl
@[simp] theorem presentCommand_errCode (c : Command) (s : State) : (presentCommand c s).errCode = s.errCode := rfl
@[simp] theorem presentCommand_rsp (c : Command) (s : State) : (presentCommand c s).rsp = s.rsp := rfl
@[simp] theorem presentCommand_faultRecord (c : Command) (s : State) : (presentCommand c s).faultRecord = s.faultRecord := rfl
@[simp] theorem presentCommand_host (c : Command) (s : State) : (presentCommand c s).host = .command c :: s.host := rfl
@[simp] theorem State.withFetchWord_ctx (s : State) (nbits w : Nat) : (s.withFetchWord nbits w).ctx = s.ctx := rfl
@[simp] theorem State.withFetchWord_phase (s : State) (nbits w : Nat) : (s.withFetchWord nbits w).phase = s.phase := rfl
@[simp] theorem State.withFetchWord_err (s : State) (nbits w : Nat) : (s.withFetchWord nbits w).err = s.err := rfl
@[simp] theorem State.withFetchWord_errCode (s : State) (nbits w : Nat) : (s.withFetchWord nbits w).errCode = s.errCode := rfl
@[simp] theorem State.withFetchWord_rsp (s : State) (nbits w : Nat) : (s.withFetchWord nbits w).rsp = s.rsp := rfl
@[simp] theorem State.withFetchWord_faultRecord (s : State) (nbits w : Nat) : (s.withFetchWord nbits w).faultRecord = s.faultRecord := rfl
@[simp] theorem State.withFetchWord_host (s : State) (nbits w : Nat) : (s.withFetchWord nbits w).host = .command (commandOfTableWord nbits w) :: s.host := rfl

/-- Setting the host's events twice keeps the last. -/
@[simp] theorem State.withHost_withHost (s : State) (h h' : List HostEvent) : (s.withHost h).withHost h' = s.withHost h' := rfl

/-- Setting the host's events to what they are changes nothing. -/
@[simp] theorem State.withHost_self (s : State) : s.withHost s.host = s := rfl

/-- Two states that agree on every field are equal. -/
theorem State.eq_of_fields : ∀ {s t : State}, s.ctx = t.ctx → s.phase = t.phase → s.err = t.err → s.errCode = t.errCode →
    s.rsp = t.rsp → s.faultRecord = t.faultRecord → s.host = t.host → s = t
  | ⟨_, _, _, _, _, _, _⟩, ⟨_, _, _, _, _, _, _⟩, rfl, rfl, rfl, rfl, rfl, rfl, rfl => rfl

/-- Two contexts that agree on every field are equal. -/
theorem HashContext.eq_of_fields : ∀ {c d : HashContext}, c.S = d.S → c.wordIndex = d.wordIndex → c.byteIndex = d.byteIndex →
    c.savedWord = d.savedWord → c = d
  | ⟨_, _, _, _⟩, ⟨_, _, _, _⟩, rfl, rfl, rfl, rfl => rfl

end Sys2Proof.Machine
end

