-- ==== Sys2Proof/Laws/Ops.lean ====
section
/-! SUPPORT. What each shared operation can do, said once (absorption, padding, decoding, the meanings, one step); the provers cite
these instead of unfolding the operations. -/

namespace Sys2Proof.Machine

/-! ### Lanes -/

theorem xorLane_getElem (S : Lanes) (i : Fin 25) (v : Lane) (j : Nat) (h : j < 25) :
    (xorLane S i v)[j] = if i.val = j then S[j] ^^^ v else S[j] := by
  simp only [xorLane, Vector.getElem_set]
  split
  · next e => subst e; rfl
  · rfl

@[simp] theorem rateLane_val (w : Fin 17) : (rateLane w).val = w.val := rfl

/-! ### Absorption -/

theorem completeLane_last (c : HashContext) (w : Lane) (h : c.wordIndex = 16) :
    completeLane c w = ⟨keccakF (xorLane c.S (rateLane c.wordIndex) w), 0, 0, 0⟩ := by
  simp [completeLane, h]

theorem completeLane_next (c : HashContext) (w : Lane) (h : c.wordIndex ≠ 16) :
    completeLane c w = ⟨xorLane c.S (rateLane c.wordIndex) w, c.wordIndex + 1, 0, 0⟩ := by
  simp [completeLane, h]

theorem absorbByte_completes (c : HashContext) (b : Byte) (h : c.byteIndex = 7) :
    absorbByte c b = completeLane c (savedWith c b) := by
  simp [absorbByte, h]

theorem absorbByte_stores (c : HashContext) (b : Byte) (h : c.byteIndex ≠ 7) :
    absorbByte c b = { c with savedWord := savedWith c b, byteIndex := c.byteIndex + 1 } := by
  simp [absorbByte, h]

@[simp] theorem absorbBytes_nil (c : HashContext) : absorbBytes c [] = c := rfl

@[simp] theorem absorbBytes_cons (c : HashContext) (b : Byte) (bs : List Byte) :
    absorbBytes c (b :: bs) = absorbBytes (absorbByte c b) bs := rfl

theorem absorbBytes_append (c : HashContext) (as bs : List Byte) :
    absorbBytes c (as ++ bs) = absorbBytes (absorbBytes c as) bs := by
  simp [absorbBytes]

/-! ### Finalization -/

@[simp] theorem finalizeContext_S (c : HashContext) : (finalizeContext c).S = keccakF (padLanes c) := rfl
@[simp] theorem finalizeContext_wordIndex (c : HashContext) : (finalizeContext c).wordIndex = 0 := rfl
@[simp] theorem finalizeContext_byteIndex (c : HashContext) : (finalizeContext c).byteIndex = 0 := rfl
@[simp] theorem finalizeContext_savedWord (c : HashContext) : (finalizeContext c).savedWord = 0 := rfl

/-- The lanes FINALIZE permutes, lane by lane: the first padding XOR, then the second (R160). -/
theorem padLanes_getElem (c : HashContext) (j : Nat) (h : j < 25) :
    (padLanes c)[j] =
      (if c.wordIndex.val = j then c.S[j] ^^^ (c.savedWord ^^^ (1 <<< (8 * c.byteIndex.val))) else c.S[j]) ^^^
        (if j = 16 then 0x8000000000000000 else 0) := by
  rw [padLanes, xorLane_getElem, xorLane_getElem, rateLane_val]
  by_cases hj : j = 16
  · subst hj; simp
  · simp [hj, Ne.symm hj]

/-! ### Decoding -/

/-- Everything `decode` can answer with an instruction: the four fields it looks at, and what it makes of them. -/
theorem decode_ok_cases {c : Command} {i : Instr} (h : decode c = .ok i) :
    rsvField c.cmd ≠ 1#1 ∧
    ((opField c.cmd = 0b001#3 ∧ argField c.cmd = 0 ∧ i = .init) ∨
     (opField c.cmd = 0b010#3 ∧ absorbCountLegal (argField c.cmd) = true ∧ i = .absorb (argField c.cmd) c.din) ∨
     (opField c.cmd = 0b011#3 ∧ argField c.cmd = 0 ∧ i = .finalize) ∨
     (opField c.cmd = 0b100#3 ∧ (argField c.cmd).extractLsb' 2 2 = 0 ∧ i = .rddig ((argField c.cmd).extractLsb' 0 2)) ∨
     (opField c.cmd = 0b101#3 ∧ argField c.cmd = 0 ∧ i = .rdstat)) := by
  unfold decode at h
  repeat' split at h
  all_goals cases h
  all_goals exact ⟨by assumption, by simp [*]⟩

/-! ### The meanings -/

/-- What a meaning can do when it answers a next state: take the command error, or have its own effect in the phase that allows it. -/
theorem exec_cases {i : Instr} {s t : State} (h : exec i s = .next t) :
    (∃ k, k ≠ .none ∧ t = cmdError k s) ∨
    (i = .init ∧
      t = State.respond { s with ctx := HashContext.zero, phase := .absorbing, err := false, errCode := .none } false 0) ∨
    (∃ n din, i = .absorb n din ∧ absorbCountLegal n = true ∧ s.phase = .absorbing ∧
      t = (s.withCtx (absorbBytes s.ctx (dataBytes din (absorbCount n)))).respond false 0) ∨
    (i = .finalize ∧ s.phase = .absorbing ∧
      t = State.respond { s with ctx := finalizeContext s.ctx, phase := .finalized } false 0) ∨
    (∃ k, i = .rddig k ∧ s.phase = .finalized ∧ t = s.respond false (digestLane s.ctx.S k)) ∨
    (i = .rdstat ∧ t = s.respond false (statusWord s)) := by
  cases i with
  | init =>
    injection h with h
    exact .inr (.inl ⟨rfl, h.symm⟩)
  | absorb n din =>
    simp only [exec, execAbsorb] at h
    split at h
    · next hn =>
      split at h <;> injection h with h
      · exact .inl ⟨_, by decide, h.symm⟩
      · exact .inl ⟨_, by decide, h.symm⟩
      · next hp => exact .inr (.inr (.inl ⟨n, din, rfl, hn, hp, h.symm⟩))
    · injection h with h
      exact .inl ⟨_, by decide, h.symm⟩
  | finalize =>
    simp only [exec, execFinalize] at h
    split at h <;> injection h with h
    · exact .inl ⟨_, by decide, h.symm⟩
    · exact .inl ⟨_, by decide, h.symm⟩
    · next hp => exact .inr (.inr (.inr (.inl ⟨rfl, hp, h.symm⟩)))
  | rddig k =>
    simp only [exec, execRddig] at h
    split at h <;> injection h with h
    · exact .inl ⟨_, by decide, h.symm⟩
    · exact .inl ⟨_, by decide, h.symm⟩
    · next hp => exact .inr (.inr (.inr (.inr (.inl ⟨k, rfl, hp, h.symm⟩))))
  | rdstat =>
    injection h with h
    exact .inr (.inr (.inr (.inr (.inr ⟨rfl, h.symm⟩))))

/-! ### One event of the host -/

theorem hostStep_waits {s : State} (h : s.host = []) : hostStep s = .next s := by simp [hostStep, h]

theorem hostStep_command {s : State} {c : Command} {rest : List HostEvent} (h : s.host = .command c :: rest) :
    hostStep s = acceptCommand c (s.withHost rest) := by simp [hostStep, h]

theorem hostStep_reset {s : State} {rest : List HostEvent} (h : s.host = .reset :: rest) :
    hostStep s = .next (resetEvent (s.withHost rest)) := by simp [hostStep, h]

theorem hostStep_resetDuring {s : State} {c : Command} {rest : List HostEvent} (h : s.host = .resetDuring c :: rest) :
    hostStep s = .next (resetEvent (s.withHost rest)) := by simp [hostStep, h]

theorem acceptCommand_ok {c : Command} {i : Instr} (h : decode c = .ok i) (s : State) : acceptCommand c s = exec i s := by
  simp [acceptCommand, h]

theorem acceptCommand_rejected {c : Command} {r : Reject} (h : decode c = .error r) (s : State) :
    acceptCommand c s = .next (illegalCommand s) := by
  simp [acceptCommand, h]

/-- What one step can do when it answers a next state. -/
theorem step_cases {s t : State} (h : step s = .next t) :
    (s.host = [] ∧ t = s) ∨
    (∃ c rest i, s.host = .command c :: rest ∧ decode c = .ok i ∧ exec i (s.withHost rest) = .next t) ∨
    (∃ c rest r, s.host = .command c :: rest ∧ decode c = .error r ∧ t = illegalCommand (s.withHost rest)) ∨
    (∃ rest, s.host = .reset :: rest ∧ t = resetEvent (s.withHost rest)) ∨
    (∃ c rest, s.host = .resetDuring c :: rest ∧ t = resetEvent (s.withHost rest)) := by
  unfold step at h
  rcases hh : s.host with _ | ⟨e, rest⟩
  · rw [hostStep_waits hh] at h
    injection h with h
    exact .inl ⟨rfl, h.symm⟩
  · cases e with
    | command c =>
      rw [hostStep_command hh] at h
      rcases hd : decode c with r | i
      · rw [acceptCommand_rejected hd] at h
        injection h with h
        exact .inr (.inr (.inl ⟨c, rest, r, rfl, hd, h.symm⟩))
      · rw [acceptCommand_ok hd] at h
        exact .inr (.inl ⟨c, rest, i, rfl, hd, h⟩)
    | reset =>
      rw [hostStep_reset hh] at h
      injection h with h
      exact .inr (.inr (.inr (.inl ⟨rest, rfl, h.symm⟩)))
    | resetDuring c =>
      rw [hostStep_resetDuring hh] at h
      injection h with h
      exact .inr (.inr (.inr (.inr ⟨c, rest, rfl, h.symm⟩)))

end Sys2Proof.Machine
end

