-- ==== Sys2Proof/Laws/PerInstr.lean ====
section
/-! SUPPORT. Families of statements made per instruction (LAWS.json). EncodesLegal: the encoder writes only legal command words for
well-formed instructions (spec/30_encoding.md R74). -/

namespace Sys2Proof.Laws.EncodesLegal

/-- A well-formed instruction's word satisfies the predicate `Legal` of R74. -/
def Statement (i : Instr) : Prop := i.wf = true → legal (encode i).cmd = true

theorem init : Statement .init := fun _ => by decide

theorem absorb (n : BitVec 4) (din : Lane) : Statement (.absorb n din) := by
  simp only [Statement, Instr.wf, encode]
  revert n
  decide

theorem finalize : Statement .finalize := fun _ => by decide

theorem rddig (k : BitVec 2) : Statement (.rddig k) := by
  simp only [Statement, Instr.wf, encode]
  revert k
  decide

theorem rdstat : Statement .rdstat := fun _ => by decide

end Sys2Proof.Laws.EncodesLegal
end

