-- ==== Sys2Proof/Laws/Run.lean ====
section
/-! SUPPORT. How a run unfolds, event by event, and the contexts that meet the invariant on the partial lane at once. -/

namespace Sys2Proof.Machine

/-- A context without a partial lane meets the invariant on it. -/
theorem HashContext.savedClear_of_savedWord_zero {c : HashContext} (h : c.savedWord = 0) : c.SavedClear := by
  simp [HashContext.SavedClear, h]

@[simp] theorem HashContext.zero_savedClear : HashContext.zero.SavedClear :=
  HashContext.savedClear_of_savedWord_zero rfl

@[simp] theorem finalizeContext_savedClear (c : HashContext) : (finalizeContext c).SavedClear :=
  HashContext.savedClear_of_savedWord_zero rfl

@[simp] theorem runEvents_nil (s : State) : runEvents [] s = ([], s) := rfl

/-- A run whose first step answers `t` goes on from `t`, after the response to its first event. -/
theorem runEvents_cons {e : HostEvent} {s t : State} (h : step (s.withHost [e]) = .next t) (es : List HostEvent) :
    runEvents (e :: es) s = (responseTo e t ++ (runEvents es t).1, (runEvents es t).2) := by
  simp [runEvents, h]

@[simp] theorem commandEvents_nil : commandEvents [] = [] := rfl

@[simp] theorem commandEvents_cons (c : Command) (cs : List Command) :
    commandEvents (c :: cs) = .command c :: commandEvents cs := rfl

theorem commandEvents_append (cs ds : List Command) : commandEvents (cs ++ ds) = commandEvents cs ++ commandEvents ds := by
  simp [commandEvents]

@[simp] theorem messageOf_nil : messageOf [] = [] := rfl

theorem messageOf_cons (c : Command) (cs : List Command) : messageOf (c :: cs) = commandBytes c ++ messageOf cs := rfl

theorem messageOf_append (cs ds : List Command) : messageOf (cs ++ ds) = messageOf cs ++ messageOf ds := by
  simp [messageOf]

end Sys2Proof.Machine
end

