-- ==== Sys2Proof/Tests/Slice0.lean ====
section
/-! SUPPORT. The model's own tests. Expected values are taken from spec/95_test_vectors.md, or worked by hand from the rule a test
names. -/

namespace Sys2Proof.Tests

open Sys2Proof.Machine

/-! ### Well-formedness and decoding -/

/-- The one check of `Instr.wf`, at its bound: a count of 9 is refused, 8 is not (R72). -/
theorem test_wf_refuses_count_nine : Instr.wf (.absorb 9 0) = false ∧ Instr.wf (.absorb 8 0) = true := by decide

/-- INIT, `CMD = 0 0000 001` (R71). -/
theorem test_decode_init : decode ⟨0b00000001, 7⟩ = .ok .init := by decide
/-- ABSORB 5, `CMD = 0 0101 010` = 0x2A (R71, R72, V14). -/
theorem test_decode_absorb : decode ⟨0b00101010, 0x55⟩ = .ok (.absorb 5 0x55) := by decide
/-- FINALIZE, `CMD = 0 0000 011` (R71). -/
theorem test_decode_finalize : decode ⟨0b00000011, 0⟩ = .ok .finalize := by decide
/-- RDDIG 3, `CMD = 0 0011 100` = 0x1C (R71, R72, V14). -/
theorem test_decode_rddig : decode ⟨0b00011100, 0⟩ = .ok (.rddig 3) := by decide
/-- RDSTAT, `CMD = 0 0000 101` (R71). -/
theorem test_decode_rdstat : decode ⟨0b00000101, 0⟩ = .ok .rdstat := by decide

/-- The rejections by name, on the words of V14. -/
theorem test_decode_rejects :
    decode ⟨0x00, 0⟩ = .error .reservedOp ∧ decode ⟨0x06, 0⟩ = .error .reservedOp ∧ decode ⟨0x07, 0⟩ = .error .reservedOp ∧
    decode ⟨0x09, 0⟩ = .error .argNotZero ∧ decode ⟨0x0B, 0⟩ = .error .argNotZero ∧ decode ⟨0x0D, 0⟩ = .error .argNotZero ∧
    decode ⟨0x24, 0⟩ = .error .digestLane ∧ decode ⟨0x2C, 0⟩ = .error .digestLane ∧
    decode ⟨0x4A, 0⟩ = .error .absorbCount ∧ decode ⟨0x7A, 0⟩ = .error .absorbCount ∧
    decode ⟨0x80, 0⟩ = .error .reservedBitSet ∧ decode ⟨0x81, 0⟩ = .error .reservedBitSet ∧
    decode ⟨0x85, 0⟩ = .error .reservedBitSet := by decide

/-- The encoder on the words of R77: ABSORB 3 is 0x1A, RDDIG 2 is 0x14. -/
theorem test_encode_words :
    encode (.absorb 3 0x636261) = ⟨0x1A, 0x636261⟩ ∧ encode (.rddig 2) = ⟨0x14, 0⟩ ∧ encode .finalize = ⟨0x03, 0⟩ := by decide

/-- A table word, `CMD` in bits 7 to 0 and `DIN` above it: ABSORB 1 of the byte 0x61. -/
theorem test_decodeTableWord : decodeTableWord 72 0x610A = some (.absorb 1 0x61) ∧ decodeTableWord 8 0x610A = some (.absorb 1 0) := by
  decide

/-! ### The parameters and the tables -/

/-- The parameters of R6 agree with one another and with the tables. -/
theorem test_parameters :
    Config.lanes * Config.laneBits = Config.stateBits ∧ Config.rateLanes + Config.capacityLanes = Config.lanes ∧
    Config.rateLanes * 8 = Config.rateBytes ∧ Config.digestLanes * 8 = Config.digestBytes ∧
    roundConstants.length = Config.rounds ∧ rotc.length = Config.rounds ∧ piln.length = Config.rounds := by decide

/-- R104: each `ROTC[i]` is `(i+1)(i+2)/2 mod 64`. -/
theorem test_rotc_closed_form : rotc = (List.range 24).map fun i => ((i + 1) * (i + 2) / 2) % 64 := by decide

/-- R107: four entries of the printed table, in both columns. -/
theorem test_roundConstants_order :
    roundConstants[0]? = some 0x0000000000000001 ∧ roundConstants[11]? = some 0x000000008000000A ∧
    roundConstants[12]? = some 0x000000008000808B ∧ roundConstants[23]? = some 0x8000000080008008 := by decide

/-- R105: the destination table, printed in the rule. -/
theorem test_destOf_table :
    (List.finRange 25).map destOf = [0, 10, 20, 5, 15, 16, 1, 11, 21, 6, 7, 17, 2, 12, 22, 23, 8, 18, 3, 13, 14, 24, 9, 19, 4] := by
  decide

/-! ### The permutation -/

/-- A state given by its lanes that are not zero. -/
def sparse (xs : List (Fin 25 × Lane)) : Lanes := xs.foldl (fun S x => S.set x.1 x.2) (Vector.replicate 25 0)

/-- V5: Theta on `S[i] = i`. -/
theorem test_theta_V5 :
    theta (Vector.ofFn fun i => BitVec.ofNat 64 i.val) =
      #v[0x1A, 0x9, 0xD, 0x1D, 0x2F, 0x1F, 0xE, 0x8, 0x16, 0x22, 0x10, 0x3, 0x3, 0x13, 0x25, 0x15, 0x18, 0x1E, 0xC, 0x38,
        0xE, 0x1D, 0x19, 0x9, 0x33] := by decide +kernel

/-- V3: Rho and Pi, both forms, on the state after Theta. -/
theorem test_rhoPi_V3 :
    rhoPi (sparse [(0, 1), (1, 1), (6, 1), (11, 1), (16, 1), (21, 1), (4, 2), (9, 2), (14, 2), (19, 2), (24, 2)]) =
      sparse [(0, 1), (1, 0x100000000000), (4, 0x8000), (6, 0x200000), (8, 0x200000000000), (10, 2), (13, 0x200),
        (15, 0x10000000), (17, 0x400), (22, 0x10000000000), (24, 4)] ∧
    rhoPiByLane (sparse [(0, 1), (1, 1), (6, 1), (11, 1), (16, 1), (21, 1), (4, 2), (9, 2), (14, 2), (19, 2), (24, 2)]) =
      sparse [(0, 1), (1, 0x100000000000), (4, 0x8000), (6, 0x200000), (8, 0x200000000000), (10, 2), (13, 0x200),
        (15, 0x10000000), (17, 0x400), (22, 0x10000000000), (24, 4)] := by decide +kernel

/-- V4: Chi on one row. -/
theorem test_chi_V4 :
    chi (sparse [(0, 1), (1, 2), (2, 4), (3, 8), (4, 16)]) = sparse [(0, 5), (1, 10), (2, 20), (3, 9), (4, 18)] := by
  decide +kernel

/-- V3: the whole of round 0 on `S[0] = 1`; lane 0 becomes 0. -/
theorem test_round_V3 :
    keccakRound (sparse [(0, 1)]) 1 =
      sparse [(1, 0x100000000000), (2, 0x8000), (3, 1), (4, 0x100000008000), (6, 0x200000200000), (8, 0x200000000000),
        (9, 0x200000), (10, 2), (11, 0x200), (13, 0x202), (15, 0x10000400), (17, 0x400), (18, 0x10000000),
        (20, 0x10000000000), (22, 0x10000000004), (24, 4)] := by decide +kernel

/-- V1: `KeccakF` of the all-zero state, all 25 lanes, one row of the printed table a row of the state. -/
theorem test_keccakF_V1 :
    (List.finRange 5).map (fun y => (List.finRange 5).map fun x => laneAt (keccakF HashContext.zero.S) x y) =
      [[0xF1258F7940E1DDE7, 0x84D5CCF933C0478A, 0xD598261EA65AA9EE, 0xBD1547306F80494D, 0x8B284E056253D057],
       [0xFF97A42D7F8E6FD4, 0x90FEE5A0A44647C4, 0x8C5BDA0CD6192E76, 0xAD30A6F71B19059C, 0x30935AB7D08FFC64],
       [0xEB5AA93F2317D635, 0xA9A6E6260D712103, 0x81A57C16DBCF555F, 0x43B831CD0347C826, 0x01F22F1A11A5569F],
       [0x05E5635A21D9AE61, 0x64BEFEF28CC970F2, 0x613670957BC46611, 0xB87C5A554FD00ECB, 0x8C3EE88A1CCF32C8],
       [0x940C7922AE3A2614, 0x1841F924A2C509E4, 0x16F53526E70465C2, 0x75F644E97F30A13B, 0xEAF1FF7B5CECA249]] := by
  decide +kernel

/-! ### Commands -/

/-- A small state: `phase`, and a context with three bytes absorbed ("abc", P2). -/
def small (p : Phase) : State :=
  { State.reset with
    ctx := { HashContext.zero with byteIndex := 3, savedWord := 0x636261 }
    phase := p }

/-- The state an outcome goes on in, if it does. -/
def nextOf (o : Host.Outcome State Fault Refusal) : Option State :=
  match o with
  | .next t => some t
  | .fault _ => none
  | .refused _ => none

/-- V10: INIT from reset leaves STATUS 0x100. -/
theorem test_init_status : (nextOf (exec .init State.reset)).map statusWord = some 0x100 := by decide

/-- V10: INIT discards three absorbed bytes and clears the error of a finalized context. -/
theorem test_init_recovers :
    (nextOf (exec .init { small .finalized with err := true, errCode := .absorbAfterFinalize })).map
      (fun t => (t.ctx, statusWord t)) = some (HashContext.zero, 0x100) := by decide

/-- V11: ABSORB 5 ignores bytes 5 to 7; ABSORB 8 from byteIndex 5 crosses a lane boundary. -/
theorem test_absorb_V11 :
    (nextOf (exec (.absorb 5 0xAAAAAA0403020100) { State.reset with phase := .absorbing })).map
      (fun t => (t.ctx.savedWord, statusWord t)) = some (0x0000000403020100, 0x1A0) ∧
    (nextOf (exec (.absorb 8 0x0C0B0A0908070605)
      { State.reset with phase := .absorbing, ctx := { HashContext.zero with byteIndex := 5, savedWord := 0x0403020100 } })).map
      (fun t => (t.ctx.S, t.ctx.savedWord, statusWord t)) =
    some (sparse [(0, 0x0706050403020100)], 0x0000000C0B0A0908, 0x1A1) := by decide +kernel

/-- V8: the byte that completes lane 16 of an all-zero block permutes at once: lane 0 is that of V1, STATUS is 0x100. -/
theorem test_absorb_fills_block_V8 :
    (nextOf (exec (.absorb 8 0) { State.reset with phase := .absorbing, ctx := { HashContext.zero with wordIndex := 16 } })).map
      (fun t => (t.ctx.S[0], statusWord t)) = some (0xF1258F7940E1DDE7, 0x100) := by decide +kernel

/-- The command word that a table word presents, run by one step: RDSTAT after "abc" shows 0x160 (P2). -/
theorem test_rdstat_P2 :
    (nextOf (step ((small .absorbing).withFetchWord 8 0x05))).map State.rsp = some (some ⟨false, 0x160⟩) := by decide

/-- V8: 135 zero bytes, just before the final permutation: only lane 16, with 0x81 in its top byte. -/
theorem test_pad_one_byte_V8 :
    padLanes { HashContext.zero with wordIndex := 16, byteIndex := 7 } = sparse [(16, 0x8100000000000000)] := by decide +kernel

/-- W2: the lanes just before the final permutation of "abc". -/
theorem test_pad_abc_W2 : padLanes (small .absorbing).ctx = sparse [(0, 0x01636261), (16, 0x8000000000000000)] := by decide +kernel

/-- W1, P1: FINALIZE of the empty message, then the four digest lanes. -/
theorem test_finalize_empty_W1 :
    (nextOf (exec .finalize { State.reset with phase := .absorbing })).map
      (fun t => (digestLane t.ctx.S 0, digestLane t.ctx.S 1, digestLane t.ctx.S 2, digestLane t.ctx.S 3)) =
    some (0x3C23F7860146D2C5, 0xC003C7DCB27D7E92, 0x3B2782CA53B600E5, 0x70A4855D04D8FA7B) := by decide +kernel

/-- W2, P2: FINALIZE of "abc", then the four digest lanes. -/
theorem test_finalize_abc_W2 :
    (nextOf (exec .finalize (small .absorbing))).map
      (fun t => (t.phase, digestLane t.ctx.S 0, digestLane t.ctx.S 1, digestLane t.ctx.S 2, digestLane t.ctx.S 3)) =
    some (.finalized, 0x4FA945EA7A65034E, 0x67D6C826A87BD4C7, 0x36A0643AE3E6D1C0, 0x456C2DA18FF544EC) := by decide +kernel

/-- The lane RDDIG reads is the one it names, on a state whose lane `i` holds `i + 1`. -/
theorem test_rddig_lane :
    (nextOf (exec (.rddig 2) { small .finalized with ctx := { HashContext.zero with S := Vector.ofFn fun i => BitVec.ofNat 64 (i.val + 1) } })).map
      State.rsp = some (some ⟨false, 3⟩) := by decide +kernel

/-- V14 and V13: an ABSORB 0 right after reset; the illegal word 0x4A, which wins over IDLE; RDDIG before FINALIZE. -/
theorem test_errors_V14 :
    (nextOf (step (State.reset.withFetchWord 8 0x02))).map (fun t => (t.rsp, statusWord t)) = some (some ⟨true, 0⟩, 0x20400) ∧
    (nextOf (step (State.reset.withFetchWord 8 0x4A))).map (fun t => (t.rsp, statusWord t)) = some (some ⟨true, 0⟩, 0x10400) ∧
    (nextOf (exec (.rddig 1) (small .absorbing))).map statusWord = some 0x50560 := by decide

/-- V14: a second FINALIZE, STATUS 0x40600; the first error's code stays when an ABSORB errs after it. -/
theorem test_first_error_is_kept :
    (nextOf (exec .finalize { State.reset with phase := .finalized })).map statusWord = some 0x40600 ∧
    (nextOf (exec (.absorb 3 0) { State.reset with phase := .finalized, err := true, errCode := .finalizeAfterFinalize })).map
      statusWord = some 0x40600 := by decide

/-- 93 U1: the fault record stays through an INIT and through a reset event (log entries 4 and 5). -/
theorem test_fault_record_is_kept :
    (nextOf (exec .init { State.reset with err := true, faultRecord := some (.contractViolation .notInitialized) })).map
      State.faultRecord = some (some (.contractViolation .notInitialized)) ∧
    (nextOf (step { State.reset with faultRecord := some (.contractViolation .illegalCmd), host := [.reset] })).map State.faultRecord =
      some (some (.contractViolation .illegalCmd)) := by decide

/-- R230: a command cut off by a reset leaves no effect and no response. -/
theorem test_reset_during_finalize :
    nextOf (step { small .absorbing with host := [.resetDuring ⟨0x03, 0⟩, .command ⟨0x05, 0⟩] }) =
      some { State.reset with host := [.command ⟨0x05, 0⟩] } := by decide

/-! ### The written form (R77, R78) -/

/-- Lines of P2 and P5, with a comment, and a line that is not of the syntax. -/
theorem test_assemble_lines :
    readLine "  ABSORB 2, 0x6362     ; 0x12".toList = some [.instr (.absorb 2 0x6362)] ∧
    readLine ".cmd 0x4A".toList = some [.raw 0x4A 0] ∧
    readLine "RDDIG 3 ; last".toList = some [.instr (.rddig 3)] ∧
    readLine "; nothing".toList = some [] ∧
    readLine "ABSORB 9, 0x0".toList = none := by decide +kernel

/-- `ABSORBS "abc"` is one ABSORB 3 of 0x636261 (R78, P4). -/
theorem test_absorbs_text :
    assemble ["ABSORBS \"abc\"".toList] = some [⟨0x1A, 0x636261⟩] := by decide +kernel

/-- R78: ten bytes are an ABSORB 8 and an ABSORB 2. -/
theorem test_absorbb_splits :
    expandAbsorbb [0, 1, 2, 3, 4, 5, 6, 7, 8, 9] = [.absorb 8 0x0706050403020100, .absorb 2 0x0908] := by decide +kernel

end Sys2Proof.Tests
end

