-- ==== Sys2Proof/Tests/Witness.lean ====
section
/-! SUPPORT. For every statement of Certificates/Slice0/Obligations.lean that has hypotheses, concrete states and operands that meet all of
them together, clause by clause, at the boundary values of their ranges. -/

namespace Sys2Proof.Tests

open Sys2Proof.Machine

/-- A context at a place of the rate block, its lanes all different. -/
def ctxAt (w : Fin 17) (b : Fin 8) (v : Lane) : HashContext := ⟨Vector.ofFn fun i => BitVec.ofNat 64 (i.val + 1), w, b, v⟩

/-- A state in a phase, its context at such a place, the host about to issue the events given. -/
def stateAt (p : Phase) (c : HashContext) (h : List HostEvent) : State := { State.reset with phase := p, ctx := c, host := h }

/-! ### Encoding -/

theorem witness_DecodeEncodeRoundTrip : Instr.wf (.absorb 8 5) = true ∧ Instr.wf (.rddig 3) = true ∧ Instr.wf .init = true := by decide

theorem witness_DecodedCommandsReEncode :
    decode ⟨0x42, 5⟩ = .ok (.absorb 8 5) ∧ decode ⟨0x1C, 5⟩ = .ok (.rddig 3) := by decide

theorem witness_OpcodeWordsDecode : (0 ≤ 8 ∧ 8 ≤ 8) ∧ (0 ≤ 3 ∧ 3 ≤ 3) := by decide

/-- Two values of `DIN` that differ beyond the bytes an ABSORB 3 (and an INIT) reads. -/
theorem witness_UnusedDinIsIgnored :
    (∀ j : Nat, (0x1A : BitVec 8).extractLsb' 0 3 = 0b010#3 → j < ((0x1A : BitVec 8).extractLsb' 3 4).toNat →
      (0xFF636261 : Lane).extractLsb' (8 * j) 8 = (0x636261 : Lane).extractLsb' (8 * j) 8) ∧
    (∀ j : Nat, (0x01 : BitVec 8).extractLsb' 0 3 = 0b010#3 → j < ((0x01 : BitVec 8).extractLsb' 3 4).toNat →
      (7 : Lane).extractLsb' (8 * j) 8 = (9 : Lane).extractLsb' (8 * j) 8) ∧ (8 ≤ 8) := by
  refine ⟨fun j _ hj => ?_, fun j h => absurd h (by decide), by decide⟩
  have : j < 3 := hj
  interval_cases j <;> decide

theorem witness_AbsorbbExpansionCarriesBytes :
    Instr.absorb 8 0x0706050403020100 ∈ expandAbsorbb [0, 1, 2, 3, 4, 5, 6, 7, 8] := by decide +kernel

/-! ### The step -/

theorem witness_StepRunsDecodedCommand :
    (stateAt .absorbing HashContext.zero [.command ⟨0x0A, 0x61⟩, .reset]).host = [.command ⟨0x0A, 0x61⟩, .reset] ∧
    decode ⟨0x0A, 0x61⟩ = .ok (.absorb 1 0x61) ∧ decodeTableWord 8 0x03 = some .finalize := by decide

theorem witness_IllegalWordRaisesIllegalCmd :
    ((small .absorbing).withHost [.command ⟨0x80, 0⟩]).host = [.command ⟨0x80, 0⟩] ∧ legal 0x80 = false ∧
    decode ⟨0x05, 0⟩ = .ok .rdstat ∧ (small .idle).phase ≠ .absorbing ∧ (small .finalized).phase ≠ .absorbing := by decide

theorem witness_ResetEventRestoresResetValues :
    ((small .absorbing).withHost [.reset]).host = [.reset] ∧
    ((small .absorbing).withHost [.resetDuring ⟨0x03, 0⟩]).host = [.resetDuring ⟨0x03, 0⟩] := by decide

theorem witness_ResetAndInitDifferOnlyInPhase :
    Instr.wf (.absorb 8 0) = true ∧ Instr.absorb 8 0 ≠ .init ∧ Instr.absorb 8 0 ≠ .rdstat ∧
    Instr.wf .finalize = true ∧ Instr.finalize ≠ .init ∧ Instr.finalize ≠ .rdstat ∧
    Instr.wf (.rddig 3) = true ∧ Instr.rddig 3 ≠ .init ∧ Instr.rddig 3 ≠ .rdstat := by decide

/-! ### INIT and ABSORB -/

theorem witness_AbsorbByteRule :
    (ctxAt 16 6 1).byteIndex.val < 7 ∧
    ((ctxAt 15 7 1).byteIndex.val = 7 ∧ (ctxAt 15 7 1).wordIndex.val < 16) ∧
    ((ctxAt 16 7 1).byteIndex.val = 7 ∧ (ctxAt 16 7 1).wordIndex.val = 16) ∧ (ctxAt 16 7 1).SavedClear := by decide +kernel

theorem witness_AbsorbResult :
    ((8 : BitVec 4).toNat ≤ 8 ∧ (small .absorbing).phase = .absorbing) ∧
    ((0 : BitVec 4).toNat ≤ 8 ∧ (small .idle).phase = .idle) ∧
    ((8 : BitVec 4).toNat ≤ 8 ∧ (small .finalized).phase = .finalized) ∧ 8 < (9 : BitVec 4).toNat := by decide

theorem witness_AbsorbClosedForm :
    ((4 : BitVec 4).toNat ≤ 8 ∧ (small .absorbing).phase = .absorbing ∧ (small .absorbing).ctx.byteIndex.val + (4 : BitVec 4).toNat < 8) ∧
    ((1 : BitVec 4).toNat ≤ 8 ∧ 8 ≤ (ctxAt 15 7 1).byteIndex.val + (1 : BitVec 4).toNat ∧ (ctxAt 15 7 1).wordIndex.val < 16) ∧
    (8 ≤ (ctxAt 16 7 1).byteIndex.val + (8 : BitVec 4).toNat ∧ (ctxAt 16 7 1).wordIndex.val = 16) ∧
    ((ctxAt 3 0 0).byteIndex.val = 0 ∧ (ctxAt 3 0 0).savedWord = 0 ∧ (stateAt .absorbing (ctxAt 3 0 0) []).phase = .absorbing) := by
  decide +kernel

/-- An ABSORB 7 that ends on the last byte but one of the block, and one that errs. -/
theorem witness_AbsorbFrame :
    (∃ t, exec (.absorb 7 0) (stateAt .absorbing (ctxAt 16 0 0) []) = .next t ∧ t.rsp = some ⟨false, 0⟩) ∧
    8 * (ctxAt 16 0 0).wordIndex.val + (ctxAt 16 0 0).byteIndex.val + (7 : BitVec 4).toNat < 136 ∧
    (∃ t, exec (.absorb 7 0) (small .idle) = .next t) := ⟨⟨_, rfl, rfl⟩, by decide, ⟨_, rfl⟩⟩

theorem witness_AbsorbRunsAtMostOnePermutation :
    (8 : BitVec 4).toNat ≤ 8 ∧ fillsBlock (ctxAt 16 7 1) = true := by decide +kernel

theorem witness_SourceAbsorbIsByteAbsorb : (ctxAt 16 7 0x00FFFFFFFFFFFFFF).SavedClear ∧ (ctxAt 0 0 0).SavedClear := by decide +kernel

/-- "abc" in one command, and in three with a RDSTAT among them (P2). -/
theorem witness_ChunkingInvariance :
    (∀ c ∈ [(⟨0x1A, 0x636261⟩ : Command)], absorbsOrReads c = true) ∧
    (∀ c ∈ [(⟨0x0A, 0x61⟩ : Command), ⟨0x02, 0⟩, ⟨0x05, 0⟩, ⟨0x12, 0x6362⟩], absorbsOrReads c = true) ∧
    messageOf [⟨0x1A, 0x636261⟩] = messageOf [⟨0x0A, 0x61⟩, ⟨0x02, 0⟩, ⟨0x05, 0⟩, ⟨0x12, 0x6362⟩] := by decide

theorem witness_BookkeepingFollowsLength :
    ∀ c ∈ List.replicate 17 (⟨0x42, 0x55⟩ : Command) ++ [⟨0x3A, 0⟩], absorbs c = true := by decide

theorem witness_StreamBytesLandInRateBlocks : 135 < 136 ∧ 135 < (List.replicate 136 (1 : Byte)).length := by decide +kernel

/-! ### FINALIZE, RDDIG and the digest -/

theorem witness_FinalizeResult :
    (small .absorbing).phase = .absorbing ∧ (small .idle).phase = .idle ∧ (small .finalized).phase = .finalized := by decide

theorem witness_PaddingXorsNeverCancel :
    ((ctxAt 16 7 1).wordIndex.val = 16 ∧ (ctxAt 16 7 1).byteIndex.val = 7 ∧ (ctxAt 16 7 1).SavedClear) ∧
    (ctxAt 15 7 1).wordIndex.val ≠ 16 ∧ (17 < 25 ∧ 17 ≠ 16 ∧ 17 ≠ (ctxAt 15 7 1).wordIndex.val) := by decide +kernel

/-- A body with an ABSORB, an illegal word, an early RDDIG and a RDSTAT. -/
theorem witness_HashIsKeccak256 :
    ∀ c ∈ [(⟨0x1A, 0x636261⟩ : Command), ⟨0x4A, 1⟩, ⟨0x0C, 0⟩, ⟨0x05, 0⟩], startsOrEnds c = false := by decide

theorem witness_OneShotHashResponses : ∀ c ∈ [(⟨0x1A, 0x636261⟩ : Command), ⟨0x02, 0⟩], absorbs c = true := by decide

theorem witness_RddigResult :
    (small .finalized).phase = .finalized ∧ 7 < 8 ∧ (small .idle).phase = .idle ∧ (small .absorbing).phase = .absorbing := by decide

/-- In FINALIZED: an ABSORB, which errs, and a core that waits. -/
theorem witness_DigestStableUntilInitOrReset :
    (∃ t, step ((small .finalized).withHost [.command ⟨0x1A, 0⟩]) = .next t) ∧ decode ⟨0x1A, 0⟩ ≠ .ok .init ∧
    (∃ t, step (small .finalized) = .next t) := ⟨⟨_, rfl⟩, by decide, ⟨_, rfl⟩⟩

/-- Lanes that differ from those of the state at index 4 and up alone. -/
theorem witness_LanesAreHiddenFromHost :
    ∀ (i : Nat) (h : i < 4), ((ctxAt 0 0 0).S.set 4 99)[i] = (ctxAt 0 0 0).S[i] := by
  have each : ∀ i : Fin 4, ((ctxAt 0 0 0).S.set 4 99)[i.val] = (ctxAt 0 0 0).S[i.val] := by decide +kernel
  exact fun i h => each ⟨i, h⟩

/-! ### RDSTAT, responses and flags -/

theorem witness_StatusWordLayout : ∃ t, exec .init (small .finalized) = .next t := ⟨_, rfl⟩

theorem witness_OneResponsePerCommand :
    ((small .finalized).withHost [.command ⟨0x1C, 0⟩]).host = [.command ⟨0x1C, 0⟩] ∧ decode ⟨0x1C, 0⟩ = .ok (.rddig 3) ∧
    decode ⟨0x05, 0⟩ = .ok .rdstat ∧ (decode ⟨0x03, 0⟩ = .ok .finalize ∧ (∀ k, Instr.finalize ≠ .rddig k) ∧ Instr.finalize ≠ .rdstat) := by
  decide

theorem witness_LegalityTableHolds :
    legal 0x7A = false ∧
    (decode ⟨0x02, 0⟩ = .ok (.absorb 0 0) ∧ legality (.absorb 0 0) .finalized = some .absorbAfterFinalize) ∧
    (decode ⟨0x05, 0⟩ = .ok .rdstat ∧ legality .rdstat .idle = none ∧ Instr.rdstat ≠ .init) := by decide

/-- A FINALIZE that errs, on a state without and on one with an earlier error. -/
theorem witness_CmdErrorEffect :
    (∃ t, step ((small .finalized).withHost [.command ⟨0x03, 0⟩]) = .next t ∧ t.rsp = some ⟨true, 0⟩) ∧
    (small .finalized).err = false ∧
    (∃ t, step ({ small .finalized with err := true, errCode := .illegalCmd }.withHost [.command ⟨0x03, 0⟩]) = .next t ∧
      t.rsp = some ⟨true, 0⟩) := ⟨⟨_, rfl, rfl⟩, rfl, ⟨_, rfl, rfl⟩⟩

/-- With `err = 1`: a RDSTAT, which keeps it, and an INIT, which clears it. -/
theorem witness_ErrorClearedOnlyByInitOrReset :
    { small .finalized with err := true }.err = true ∧
    (∃ t, step ({ small .finalized with err := true }.withHost [.command ⟨0x05, 0⟩]) = .next t) ∧
    (∃ t, step ({ small .finalized with err := true }.withHost [.command ⟨0x01, 0⟩]) = .next t) := ⟨rfl, ⟨_, rfl⟩, ⟨_, rfl⟩⟩

theorem witness_ErrorStateDoesNotChangeResults : decode ⟨0x04, 0⟩ ≠ .ok .rdstat := by decide

theorem witness_PhaseChangesOnlyByResetInitFinalize :
    ∃ t, step ((small .absorbing).withHost [.command ⟨0x03, 0⟩]) = .next t := ⟨_, rfl⟩

theorem witness_ReadsAndEmptyAbsorbChangeNothing :
    (small .finalized).phase = .finalized ∧ (small .absorbing).phase = .absorbing := by decide

/-! ### Invariants and whole-machine rules -/

/-- A state that meets the invariants with three bytes absorbed and an error standing, and one in FINALIZED. -/
theorem witness_StepKeepsInvariants :
    State.Inv ({ small .absorbing with err := true, errCode := .digestNotReady }.withHost [.command ⟨0x0A, 0x61⟩]) ∧
    (∃ t, step ({ small .absorbing with err := true, errCode := .digestNotReady }.withHost [.command ⟨0x0A, 0x61⟩]) = .next t) ∧
    State.Inv (stateAt .finalized (ctxAt 0 0 0) [.command ⟨0x04, 0⟩]) := ⟨by decide +kernel, ⟨_, rfl⟩, by decide +kernel⟩

theorem witness_FaultRecordIsNeverLost :
    (∃ t, step ({ small .idle with faultRecord := some (.contractViolation .illegalCmd) }.withHost [.command ⟨0x03, 0⟩]) = .next t ∧
      t.rsp = some ⟨true, 0⟩) ∧
    State.FaultRecorded { small .idle with err := true, faultRecord := some (.contractViolation .illegalCmd) } :=
  ⟨⟨_, rfl, rfl⟩, by decide⟩

/-- An ABSORB 8 that fills the block, a FINALIZE, and an ABSORB 8 that does not fill it. -/
theorem witness_CapacityChangesOnlyByPermutation :
    ((∃ t, acceptCommand ⟨0x42, 5⟩ (stateAt .absorbing (ctxAt 16 7 1) []) = .next t) ∧
      commandPermutations ⟨0x42, 5⟩ (stateAt .absorbing (ctxAt 16 7 1) []) = 1) ∧
    ((∃ t, acceptCommand ⟨0x03, 5⟩ (stateAt .absorbing (ctxAt 16 7 1) []) = .next t) ∧
      commandPermutations ⟨0x03, 5⟩ (stateAt .absorbing (ctxAt 16 7 1) []) = 1) ∧
    ((∃ t, acceptCommand ⟨0x42, 5⟩ (stateAt .absorbing (ctxAt 15 7 1) []) = .next t) ∧
      commandPermutations ⟨0x42, 5⟩ (stateAt .absorbing (ctxAt 15 7 1) []) = 0 ∧ decode ⟨0x42, 5⟩ ≠ .ok .init ∧ (17 < 25 ∧ 17 ≤ 17)) :=
  ⟨⟨⟨_, rfl⟩, by decide +kernel⟩, ⟨⟨_, rfl⟩, by decide +kernel⟩, ⟨_, rfl⟩, by decide +kernel, by decide, by decide⟩

theorem witness_HashRunsPermutationsLinearInLength :
    ∀ c ∈ List.replicate 17 (⟨0x42, 0x55⟩ : Command), absorbs c = true := by decide

/-! ### The permutation -/

/-- A state that is not zero, with all column parities zero: one lane twice in column 0. -/
theorem witness_ThetaRule :
    let S := sparse [(0, 5), (5, 5)]
    ∀ x : Fin 5, S[x.val] ^^^ S[x.val + 5] ^^^ S[x.val + 10] ^^^ S[x.val + 15] ^^^ S[x.val + 20] = 0 := by decide +kernel

theorem witness_ChiRule :
    (∀ x : Fin 5, (sparse [(5, 1)])[x.val + 5 * (4 : Fin 5).val] = 0) ∧
    (∀ x : Fin 5, (Vector.replicate 25 (BitVec.allOnes 64) : Lanes)[x.val + 5 * (0 : Fin 5).val] = BitVec.allOnes 64) := by
  decide +kernel

theorem witness_IotaAndRoundConstants :
    (0x8000000080008008 : Lane) ∈ roundConstants ∧ (0x8000000080008008 : Lane).getLsbD 63 = true := by decide

theorem witness_RotationMovesBits : (1 ≤ 1 ∧ 1 ≤ 63) ∧ (1 ≤ 63 ∧ 63 ≤ 63) ∧ 63 < 64 := by decide

/-! ### Error codes and repeated commands -/

/-- A command that errs from a state without an error, and one that errs where an error stands. -/
theorem witness_ErrorCodesFollowTheTable :
    ((small .finalized).err = false ∧ (small .finalized).errCode = .none ∧
      (∃ t, acceptCommand ⟨0x1A, 0⟩ (small .finalized) = .next t ∧ t.err = true)) ∧
    ({ small .idle with err := true, errCode := .illegalCmd }.err = true ∧ decode ⟨0x03, 0⟩ ≠ .ok .init ∧
      (∃ t, acceptCommand ⟨0x03, 0⟩ { small .idle with err := true, errCode := .illegalCmd } = .next t)) :=
  ⟨⟨rfl, rfl, ⟨_, rfl, rfl⟩⟩, rfl, by decide, ⟨_, rfl⟩⟩

theorem witness_RepeatedStateChangingCommands :
    (1 ≤ (1 : BitVec 4).toNat ∧ (1 : BitVec 4).toNat ≤ 8) ∧ (1 ≤ (8 : BitVec 4).toNat ∧ (8 : BitVec 4).toNat ≤ 8) ∧
    (small .absorbing).phase = .absorbing := by decide

end Sys2Proof.Tests
end

section
/-! PROOFS. The step as the meaning of the decoded command (spec/10_state.md R10, R30), and the 64-bit rotation
(spec/00_scope.md R9, spec/40_permutation.md R109). -/

namespace Sys2Proof.Machine

/-! ### The step on a command -/

theorem decodeTableWord_eq_some_iff {nbits w : Nat} {i : Instr} :
    decodeTableWord nbits w = some i ↔ decode (commandOfTableWord nbits w) = .ok i := by
  unfold decodeTableWord
  cases decode (commandOfTableWord nbits w) <;> simp

/-- The rule of a step on a command that decodes; `acceptCommand_rejected` is its counterpart for the other words. -/
theorem step_command_of_decode {s : State} {c : Command} {rest : List HostEvent} {i : Instr}
    (hhost : s.host = .command c :: rest) (hdec : decode c = .ok i) : step s = exec i (s.withHost rest) :=
  calc step s = acceptCommand c (s.withHost rest) := hostStep_command hhost
    _ = exec i (s.withHost rest) := acceptCommand_ok hdec _

/-- Taking off the command that `withFetchWord` put first gives back the state it was put before. -/
@[simp] theorem State.withHost_withFetchWord (s : State) (nbits w : Nat) :
    (s.withFetchWord nbits w).withHost s.host = s := rfl

/-- Settles O7: the host's command by `step_command_of_decode`, and a table word as the command it spells. -/
theorem stepRunsDecodedCommand : Obligations.StepRunsDecodedCommand := by
  unfold Obligations.StepRunsDecodedCommand
  refine ⟨fun s c rest i hhost hdec => step_command_of_decode hhost hdec, fun s nbits w i hword => ?_⟩
  calc step (s.withFetchWord nbits w)
      = exec i ((s.withFetchWord nbits w).withHost s.host) :=
        step_command_of_decode (s.withFetchWord_host nbits w) (decodeTableWord_eq_some_iff.mp hword)
    _ = exec i s := by rw [State.withHost_withFetchWord]

/-! ### The rotation -/

@[simp] theorem rotl64_zero (v : Lane) : rotl64 v 0 = v := by
  have hout : v >>> 64 = 0#64 := BitVec.ushiftRight_eq_zero (Nat.le_refl 64)
  simp [rotl64, BitVec.rotateLeft_def, hout]

/-- A rotation by less than 64 as the two shifts of R9. -/
theorem rotl64_eq_shifts (v : Lane) {n : Nat} (hn : n < 64) : rotl64 v n = (v <<< n) ||| (v >>> (64 - n)) := by
  rw [rotl64, BitVec.rotateLeft_def, Nat.mod_eq_of_lt hn]

/-- A bit that stays inside the lane moves up by `n`. -/
theorem getLsbD_rotl64_of_add_lt (v : Lane) {n b : Nat} (h : b + n < 64) :
    (rotl64 v n).getLsbD (b + n) = v.getLsbD b := by
  have hn : n < 64 := by omega
  have hhigh : ¬ b + n < n := by omega
  rw [rotl64, BitVec.getLsbD_rotateLeft, Nat.mod_eq_of_lt hn]
  simp [hhigh, h]

/-- A bit that is shifted out at the top comes in at the bottom. -/
theorem getLsbD_rotl64_of_le_add (v : Lane) {n b : Nat} (hn : n < 64) (hb : b < 64) (h : 64 ≤ b + n) :
    (rotl64 v n).getLsbD (b + n - 64) = v.getLsbD b := by
  have hlow : b + n - 64 < n := by omega
  have hsource : 64 - n + (b + n - 64) = b := by omega
  rw [rotl64, BitVec.getLsbD_rotateLeft, Nat.mod_eq_of_lt hn]
  simp [hlow, hsource]

/-- R109: rotation moves bit `b` to bit `(b + n) mod 64`. -/
theorem getLsbD_rotl64_add_mod (v : Lane) {n b : Nat} (hn : n < 64) (hb : b < 64) :
    (rotl64 v n).getLsbD ((b + n) % 64) = v.getLsbD b := by
  rcases Nat.lt_or_ge (b + n) 64 with hstays | hwraps
  · rw [Nat.mod_eq_of_lt hstays, getLsbD_rotl64_of_add_lt v hstays]
  · have hmod : (b + n) % 64 = b + n - 64 := by omega
    rw [hmod, getLsbD_rotl64_of_le_add v hn hb hwraps]

/-- Settles O52: the shifts by `rotl64_eq_shifts`, the bits by `getLsbD_rotl64_add_mod`, which splits on whether the bit wraps. -/
theorem rotationMovesBits : Obligations.RotationMovesBits := by
  unfold Obligations.RotationMovesBits
  exact ⟨rotl64_zero, fun v n _ hn => rotl64_eq_shifts v (by omega),
    fun v n b _ hn hb => getLsbD_rotl64_add_mod v (by omega) hb, by decide⟩

end Sys2Proof.Machine
end

section
/-! PROOFS. What an accepted command and a step can do, said once in terms of the table of R202 (spec/10_state.md R30, R31, R37;
spec/60_exceptions.md R200 to R206): a command errs and does nothing else, or it runs. -/

namespace Sys2Proof.Machine

/-! ### Which commands err, and what the others do -/

/-- The error a command raises in a phase: ILLEGAL_CMD for an illegal word whatever the phase (R203), else the entry of R202's table;
`none` is "ok". `acceptCommand_of_commandError` ties it to the machine. -/
def commandError (c : Command) (p : Phase) : Option ErrCode :=
  match decode c with
  | .ok i => legality i p
  | .error _ => some .illegalCmd

/-- The state an instruction leaves where R202's table says ok. `acceptCommand_of_legality_none` ties it to the machine. -/
def effect : Instr → State → State
  | .init, s => State.respond { s with ctx := HashContext.zero, phase := .absorbing, err := false, errCode := .none } false 0
  | .absorb n din, s => (s.withCtx (absorbBytes s.ctx (dataBytes din (absorbCount n)))).respond false 0
  | .finalize, s => State.respond { s with ctx := finalizeContext s.ctx, phase := .finalized } false 0
  | .rddig k, s => s.respond false (digestLane s.ctx.S k)
  | .rdstat, s => s.respond false (statusWord s)

/-- `DOUT` of an instruction that runs (R31); `effect_rsp` ties it to the machine. -/
def doutOf : Instr → State → Lane
  | .rddig k, s => digestLane s.ctx.S k
  | .rdstat, s => statusWord s
  | _, _ => 0

@[simp] theorem effect_rsp (i : Instr) (s : State) : (effect i s).rsp = some ⟨false, doutOf i s⟩ := by
  cases i <;> rfl

@[simp] theorem effect_host (i : Instr) (s : State) : (effect i s).host = s.host := by
  cases i <;> rfl

theorem effect_err_of_ne_init {i : Instr} (hi : i ≠ .init) (s : State) :
    (effect i s).err = s.err ∧ (effect i s).errCode = s.errCode := by
  cases i with
  | init => exact absurd rfl hi
  | absorb n din => exact ⟨rfl, rfl⟩
  | finalize => exact ⟨rfl, rfl⟩
  | rddig k => exact ⟨rfl, rfl⟩
  | rdstat => exact ⟨rfl, rfl⟩

theorem doutOf_eq_zero {i : Instr} (hdig : ∀ k, i ≠ .rddig k) (hstat : i ≠ .rdstat) (s : State) : doutOf i s = 0 := by
  cases i with
  | init => rfl
  | absorb n din => rfl
  | finalize => rfl
  | rddig k => exact absurd rfl (hdig k)
  | rdstat => exact absurd rfl hstat

theorem legality_absorb_eq_none {n : BitVec 4} {din : Lane} {p : Phase} :
    legality (.absorb n din) p = none ↔ p = .absorbing := by
  cases p <;> simp [legality]

theorem legality_finalize_eq_none {p : Phase} : legality .finalize p = none ↔ p = .absorbing := by
  cases p <;> simp [legality]

theorem legality_rddig_eq_none {k : BitVec 2} {p : Phase} : legality (.rddig k) p = none ↔ p = .finalized := by
  cases p <;> simp [legality]

/-- NONE is never raised (R201). -/
theorem legality_ne_some_none (i : Instr) (p : Phase) : legality i p ≠ some .none := by
  cases i <;> cases p <;> simp [legality]

theorem commandError_of_decode {c : Command} {i : Instr} (h : decode c = .ok i) (p : Phase) :
    commandError c p = legality i p := by
  simp [commandError, h]

theorem commandError_of_rejected {c : Command} {r : Reject} (h : decode c = .error r) (p : Phase) :
    commandError c p = some .illegalCmd := by
  simp [commandError, h]

/-- A command runs exactly if its word decodes and the table has no code for it. -/
theorem commandError_eq_none_iff {c : Command} {p : Phase} :
    commandError c p = none ↔ ∃ i, decode c = .ok i ∧ legality i p = none := by
  rcases hdec : decode c with r | i
  · simp [commandError_of_rejected hdec]
  · simp [commandError_of_decode hdec]

theorem ne_none_of_commandError {c : Command} {p : Phase} {k : ErrCode} (h : commandError c p = some k) : k ≠ .none := by
  rintro rfl
  rcases hdec : decode c with r | i
  · simp [commandError_of_rejected hdec] at h
  · exact legality_ne_some_none i p (commandError_of_decode hdec p ▸ h)

theorem wf_of_decode {c : Command} {i : Instr} (h : decode c = .ok i) : i.wf = true := by
  obtain ⟨-, ⟨-, -, rfl⟩ | ⟨-, hcount, rfl⟩ | ⟨-, -, rfl⟩ | ⟨-, -, rfl⟩ | ⟨-, -, rfl⟩⟩ := decode_ok_cases h
  · rfl
  · exact hcount
  · rfl
  · rfl
  · rfl

theorem absorbCount_le_of_decode {c : Command} {n : BitVec 4} {din : Lane} (h : decode c = .ok (.absorb n din)) :
    n.toNat ≤ 8 := of_decide_eq_true (wf_of_decode h)

/-- The meanings follow the table of R202: where it has a code, the command error with that code. -/
theorem exec_of_legality_some {i : Instr} {s : State} {k : ErrCode} (hwf : i.wf = true) (h : legality i s.phase = some k) :
    exec i s = .next (cmdError k s) := by
  obtain ⟨ctx, phase, err, errCode, rsp, faultRecord, host⟩ := s
  cases i with
  | init => cases h
  | absorb n din =>
    have hcount : absorbCountLegal n = true := hwf
    rw [exec, execAbsorb, if_pos hcount]
    cases phase <;> cases h <;> rfl
  | finalize => cases phase <;> cases h <;> rfl
  | rddig k => cases phase <;> cases h <;> rfl
  | rdstat => cases h

/-- The meanings follow the table of R202: where it says ok, the command's own effect. -/
theorem exec_of_legality_none {i : Instr} {s : State} (hwf : i.wf = true) (h : legality i s.phase = none) :
    exec i s = .next (effect i s) := by
  cases i with
  | init => rfl
  | absorb n din =>
    have hcount : absorbCountLegal n = true := hwf
    simp [exec, execAbsorb, hcount, legality_absorb_eq_none.mp h, effect]
  | finalize => simp [exec, execFinalize, legality_finalize_eq_none.mp h, effect]
  | rddig k => simp [exec, execRddig, legality_rddig_eq_none.mp h, effect]
  | rdstat => rfl

/-- What an ABSORB can do: err, or run with a count of at most 8. -/
theorem exec_absorb_cases {n : BitVec 4} {din : Lane} {s t : State} (h : exec (.absorb n din) s = .next t) :
    (∃ k, t = cmdError k s) ∨ (n.toNat ≤ 8 ∧ t = effect (.absorb n din) s) := by
  by_cases hwf : (Instr.absorb n din).wf = true
  · rcases hlegal : legality (.absorb n din) s.phase with - | k
    · rw [exec_of_legality_none hwf hlegal] at h
      injection h with h
      exact .inr ⟨of_decide_eq_true hwf, h.symm⟩
    · rw [exec_of_legality_some hwf hlegal] at h
      injection h with h
      exact .inl ⟨k, h.symm⟩
  · rw [exec, execAbsorb, if_neg (show ¬ absorbCountLegal n = true from hwf)] at h
    injection h with h
    exact .inl ⟨.illegalCmd, h.symm⟩

/-! ### An accepted command -/

theorem acceptCommand_of_commandError {c : Command} {s : State} {k : ErrCode} (h : commandError c s.phase = some k) :
    acceptCommand c s = .next (cmdError k s) := by
  rcases hdec : decode c with r | i
  · obtain rfl : ErrCode.illegalCmd = k := by simpa [commandError_of_rejected hdec] using h
    exact acceptCommand_rejected hdec s
  · rw [acceptCommand_ok hdec]
    exact exec_of_legality_some (wf_of_decode hdec) (commandError_of_decode hdec _ ▸ h)

theorem acceptCommand_of_legality_none {c : Command} {s : State} {i : Instr} (hdec : decode c = .ok i)
    (h : legality i s.phase = none) : acceptCommand c s = .next (effect i s) := by
  rw [acceptCommand_ok hdec]
  exact exec_of_legality_none (wf_of_decode hdec) h

/-- A command errs or runs; the lemmas `acceptCommand_of_…` say what the core answers in the two cases. -/
theorem command_errs_or_runs (c : Command) (p : Phase) :
    (∃ k, commandError c p = some k) ∨ (∃ i, decode c = .ok i ∧ legality i p = none) := by
  rcases h : commandError c p with - | k
  · exact .inr (commandError_eq_none_iff.mp h)
  · exact .inl ⟨k, rfl⟩

/-- What an accepted command can do. -/
theorem acceptCommand_cases {c : Command} {s t : State} (h : acceptCommand c s = .next t) :
    (∃ k, commandError c s.phase = some k ∧ t = cmdError k s) ∨
    (∃ i, decode c = .ok i ∧ legality i s.phase = none ∧ t = effect i s) := by
  rcases command_errs_or_runs c s.phase with ⟨k, hk⟩ | ⟨i, hdec, hrun⟩
  · rw [acceptCommand_of_commandError hk] at h
    injection h with h
    exact .inl ⟨k, hk, h.symm⟩
  · rw [acceptCommand_of_legality_none hdec hrun] at h
    injection h with h
    exact .inr ⟨i, hdec, hrun, h.symm⟩

/-! ### A step -/

/-- The host issues a reset next, between two commands or during one (R230). -/
def ResetNext (s : State) : Prop := (∃ rest, s.host = .reset :: rest) ∨ (∃ c rest, s.host = .resetDuring c :: rest)

/-- What a step can do: wait, err, run a command, or reset. -/
theorem step_outcomes {s t : State} (h : step s = .next t) :
    t = s ∨
    (∃ rest k, k ≠ .none ∧ t = cmdError k (s.withHost rest)) ∨
    (∃ c rest i, s.host = .command c :: rest ∧ decode c = .ok i ∧ legality i s.phase = none ∧
      t = effect i (s.withHost rest)) ∨
    (ResetNext s ∧ ∃ rest, t = resetEvent (s.withHost rest)) := by
  unfold step at h
  rcases hhost : s.host with - | ⟨e, rest⟩
  · rw [hostStep_waits hhost] at h
    injection h with h
    exact .inl h.symm
  · cases e with
    | command c =>
      rw [hostStep_command hhost] at h
      rcases acceptCommand_cases h with ⟨k, hk, ht⟩ | ⟨i, hdec, hrun, ht⟩
      · exact .inr (.inl ⟨rest, k, ne_none_of_commandError hk, ht⟩)
      · exact .inr (.inr (.inl ⟨c, rest, i, rfl, hdec, hrun, ht⟩))
    | reset =>
      rw [hostStep_reset hhost] at h
      injection h with h
      exact .inr (.inr (.inr ⟨.inl ⟨rest, hhost⟩, rest, h.symm⟩))
    | resetDuring c =>
      rw [hostStep_resetDuring hhost] at h
      injection h with h
      exact .inr (.inr (.inr ⟨.inr ⟨c, rest, hhost⟩, rest, h.symm⟩))

end Sys2Proof.Machine
end

section
/-! PROOFS. Absorption of the bytes of one command (spec/41_absorb.md R131, R132): the partial lane stays clear above `byteIndex`, and
what up to 8 bytes of `DIN` make of a context. -/

namespace Sys2Proof.Machine

/-! ### The partial lane -/

theorem HashContext.SavedClear.getLsbD {c : HashContext} (h : c.SavedClear) {i : Nat} (hi : 8 * c.byteIndex.val ≤ i) :
    c.savedWord.getLsbD i = false := by
  have hbit := congrArg (fun v : Lane => v.getLsbD (i - 8 * c.byteIndex.val)) h
  simpa [BitVec.getLsbD_ushiftRight, Nat.add_sub_cancel' hi] using hbit

@[simp] theorem completeLane_savedWord (c : HashContext) (w : Lane) : (completeLane c w).savedWord = 0 := by
  by_cases h : c.wordIndex = 16
  · simp [completeLane_last c w h]
  · simp [completeLane_next c w h]

@[simp] theorem completeLane_byteIndex (c : HashContext) (w : Lane) : (completeLane c w).byteIndex = 0 := by
  by_cases h : c.wordIndex = 16
  · simp [completeLane_last c w h]
  · simp [completeLane_next c w h]

/-- The index of the next byte of a lane that the byte before it does not complete. -/
theorem val_byteIndex_succ {b : Fin 8} (h : b ≠ 7) : (b + 1).val = b.val + 1 := by
  rw [Fin.val_add_one]
  exact if_neg h

theorem savedClear_absorbByte {c : HashContext} (h : c.SavedClear) (b : Byte) : (absorbByte c b).SavedClear := by
  by_cases hb : c.byteIndex = 7
  · rw [absorbByte_completes c b hb]
    exact HashContext.savedClear_of_savedWord_zero (completeLane_savedWord _ _)
  · rw [absorbByte_stores c b hb]
    change savedWith c b >>> (8 * (c.byteIndex + 1).val) = 0
    rw [val_byteIndex_succ hb]
    refine BitVec.eq_of_getLsbD_eq fun i hi => ?_
    have hsaved := h.getLsbD (i := 8 * (c.byteIndex.val + 1) + i) (by omega)
    have hbyte := BitVec.getLsbD_of_ge b (8 * (c.byteIndex.val + 1) + i - 8 * c.byteIndex.val) (by omega)
    simp [savedWith, hsaved, zext64_getLsbD, hbyte]

theorem savedClear_absorbBytes {c : HashContext} (h : c.SavedClear) (bs : List Byte) : (absorbBytes c bs).SavedClear := by
  induction bs generalizing c with
  | nil => exact h
  | cons b bs ih => exact ih (savedClear_absorbByte h b)

end Sys2Proof.Machine
end

section
/-! PROOFS. The invariants of spec/10_state.md R28, and reset (R36, spec/70_reset_and_hazards.md R230). -/

namespace Sys2Proof.Machine

/-! ### Reset -/

/-- Settles O10: every field of `State.reset` by evaluation, a lane as an entry of a replicated vector. -/
theorem resetStateValues : Obligations.ResetStateValues := by
  unfold Obligations.ResetStateValues
  refine ⟨fun i hi => ?_, rfl, rfl, rfl, rfl, rfl, rfl, rfl, rfl, rfl⟩
  exact Vector.getElem_replicate hi

/-- Settles O9: both kinds of reset are a `resetEvent` on the state without the event. -/
theorem resetEventRestoresResetValues : Obligations.ResetEventRestoresResetValues := by
  unfold Obligations.ResetEventRestoresResetValues
  intro s rest
  exact ⟨fun hhost => hostStep_reset hhost, fun c hhost => hostStep_resetDuring hhost⟩

/-! ### The invariants -/

/-- An error code other than NONE has one of the numbers 1 to 5 (R201). -/
theorem ErrCode.code_bounds {k : ErrCode} (h : k ≠ .none) : 1 ≤ k.code.toNat ∧ k.code.toNat ≤ 5 := by
  cases k with
  | none => exact absurd rfl h
  | illegalCmd => decide
  | notInitialized => decide
  | absorbAfterFinalize => decide
  | finalizeAfterFinalize => decide
  | digestNotReady => decide

/-- A command error keeps the context and the phase, and sets a code or keeps the one that agrees already. -/
theorem inv_cmdError {s : State} {k : ErrCode} (hk : k ≠ .none) (h : s.Inv) : (cmdError k s).Inv := by
  obtain ⟨hsaved, hidle, hfinal, -, hcode⟩ := h
  refine ⟨hsaved, hidle, hfinal, nofun, fun _ => ?_⟩
  rw [cmdError_errCode]
  rcases herr : s.err
  · rw [State.errCodeAfter, herr]
    exact ErrCode.code_bounds hk
  · rw [State.errCodeAfter, herr]
    exact hcode herr

/-- A state that a reset or an INIT leaves. -/
theorem inv_of_zero {s : State} (hctx : s.ctx = HashContext.zero) (herr : s.err = false) (hcode : s.errCode = .none) :
    s.Inv := by
  refine ⟨hctx ▸ HashContext.zero_savedClear, fun _ => hctx, fun _ => ?_, fun _ => hcode, fun h => absurd (herr ▸ h) nofun⟩
  rw [hctx]
  exact ⟨rfl, rfl, rfl⟩

theorem inv_effect {i : Instr} {s : State} (hrun : legality i s.phase = none) (h : s.Inv) : (effect i s).Inv := by
  cases i with
  | init => exact inv_of_zero rfl rfl rfl
  | absorb n din =>
    obtain ⟨hsaved, -, -, hcode⟩ := h
    have hphase := legality_absorb_eq_none.mp hrun
    have hnext : (effect (.absorb n din) s).phase = .absorbing := hphase
    exact ⟨savedClear_absorbBytes hsaved _, fun hp => absurd (hnext ▸ hp) nofun, fun hp => absurd (hnext ▸ hp) nofun, hcode⟩
  | finalize =>
    obtain ⟨-, -, -, hcode⟩ := h
    exact ⟨finalizeContext_savedClear s.ctx, nofun, fun _ => ⟨rfl, rfl, rfl⟩, hcode⟩
  | rddig k => exact h
  | rdstat => exact h

/-- Settles O41, by the four things a step can do; what a step changes of the partial lane is `savedClear_absorbBytes`. -/
theorem stepKeepsInvariants : Obligations.StepKeepsInvariants := by
  unfold Obligations.StepKeepsInvariants
  intro s t hinv hstep
  have hwaiting : ∀ rest, (s.withHost rest).Inv := fun _ => hinv
  rcases step_outcomes hstep with rfl | ⟨rest, k, hk, rfl⟩ | ⟨c, rest, i, -, -, hrun, rfl⟩ | ⟨-, rest, rfl⟩
  · exact hinv
  · exact inv_cmdError hk (hwaiting rest)
  · exact inv_effect hrun (hwaiting rest)
  · exact inv_of_zero rfl rfl rfl

/-- Settles O42: in `State.reset` the context is zero and no error stands. -/
theorem resetMeetsInvariants : Obligations.ResetMeetsInvariants := inv_of_zero rfl rfl rfl

end Sys2Proof.Machine
end

section
/-! PROOFS. The flags, the response and the status word (spec/10_state.md R24 to R27, R31, R32, R37; spec/60_exceptions.md R206). -/

namespace Sys2Proof.Machine

/-! ### What changes the flags -/

/-- Settles O36: of the four things a step can do, an error keeps the flags (R205), a reset clears them, and of the commands that
run only INIT touches them. -/
theorem errorClearedOnlyByInitOrReset : Obligations.ErrorClearedOnlyByInitOrReset := by
  unfold Obligations.ErrorClearedOnlyByInitOrReset
  intro s t herr hstep
  rcases step_outcomes hstep with rfl | ⟨rest, k, -, rfl⟩ | ⟨c, rest, i, hhost, hdec, -, rfl⟩ | ⟨hreset, rest, rfl⟩
  · exact .inl ⟨herr, rfl⟩
  · exact .inl ⟨rfl, if_pos herr⟩
  · by_cases hi : i = .init
    · subst hi
      exact .inr ⟨rfl, rfl, .inr (.inr ⟨c, rest, hhost, hdec⟩)⟩
    · obtain ⟨herr', hcode⟩ := effect_err_of_ne_init hi (s.withHost rest)
      exact .inl ⟨herr'.trans herr, hcode⟩
  · exact .inr ⟨rfl, rfl, hreset.imp_right .inl⟩

/-- Settles O38: errors leave the phase, and of the commands that run only INIT and FINALIZE write it. -/
theorem phaseChangesOnlyByResetInitFinalize : Obligations.PhaseChangesOnlyByResetInitFinalize := by
  unfold Obligations.PhaseChangesOnlyByResetInitFinalize
  intro s t hstep
  rcases step_outcomes hstep with rfl | ⟨rest, k, -, rfl⟩ | ⟨c, rest, i, hhost, hdec, hrun, rfl⟩ | ⟨hreset, rest, rfl⟩
  · exact .inl rfl
  · exact .inl rfl
  · cases i with
    | init => exact .inr (.inr (.inl ⟨rfl, c, rest, hhost, hdec⟩))
    | absorb n din => exact .inl rfl
    | finalize => exact .inr (.inr (.inr ⟨legality_finalize_eq_none.mp hrun, rfl, c, rest, hhost, hdec⟩))
    | rddig k => exact .inl rfl
    | rdstat => exact .inl rfl
  · exact .inr (.inl ⟨rfl, hreset⟩)

/-! ### The response -/

/-- Settles O33: a command that errs answers (1, 0), one that runs answers 0 and `doutOf`. -/
theorem oneResponsePerCommand : Obligations.OneResponsePerCommand := by
  unfold Obligations.OneResponsePerCommand
  intro s c rest hhost
  have hstep : step s = acceptCommand c (s.withHost rest) := hostStep_command hhost
  rcases command_errs_or_runs c s.phase with ⟨k, hk⟩ | ⟨i, hdec, hrun⟩
  · have herrs : ∀ i, decode c = .ok i → legality i s.phase ≠ none := fun i hdec => by
      rw [← commandError_of_decode hdec, hk]
      exact nofun
    refine ⟨_, ⟨true, 0⟩, hstep.trans (acceptCommand_of_commandError hk), rfl, iff_of_true rfl herrs, fun _ => rfl,
      fun _ _ _ _ => rfl, fun _ _ => nofun, fun hdec => absurd rfl (herrs _ hdec)⟩
  · have hanswer : ∀ j, decode c = .ok j → doutOf i (s.withHost rest) = doutOf j (s.withHost rest) := fun j hj => by
      rw [hdec] at hj
      injection hj with hj
      rw [hj]
    refine ⟨_, ⟨false, doutOf i (s.withHost rest)⟩, hstep.trans (acceptCommand_of_legality_none hdec hrun), effect_rsp _ _,
      iff_of_false nofun fun herrs => herrs i hdec hrun, nofun, fun j hj hdig hstat => ?_, fun k hk _ => hanswer _ hk,
      fun hstat => hanswer _ hstat⟩
    exact (hanswer j hj).trans (doutOf_eq_zero hdig hstat _)

/-- What an instruction that runs answers depends on no lane outside FINALIZED, on lanes 0 to 3 alone there, and never on
`savedWord`. -/
theorem doutOf_eq_of_digest_lanes_eq {i : Instr} {s : State} {S' : Lanes} (hrun : legality i s.phase = none)
    (hS : s.phase = .finalized → ∀ (j : Nat) (_ : j < 4), S'[j] = s.ctx.S[j]) (w' : Lane) :
    doutOf i { s with ctx := { s.ctx with S := S', savedWord := w' } } = doutOf i s := by
  cases i with
  | init => rfl
  | absorb n din => rfl
  | finalize => rfl
  | rddig k => exact hS (legality_rddig_eq_none.mp hrun) k.toNat k.isLt
  | rdstat => rfl

/-- Settles O30: the two states are in the same phase, so a command errs in both or runs in both. -/
theorem lanesAreHiddenFromHost : Obligations.LanesAreHiddenFromHost := by
  unfold Obligations.LanesAreHiddenFromHost
  intro s S' w' c hS
  rcases command_errs_or_runs c s.phase with ⟨k, hk⟩ | ⟨i, hdec, hrun⟩
  · exact ⟨_, _, acceptCommand_of_commandError hk, acceptCommand_of_commandError hk, rfl⟩
  · refine ⟨_, _, acceptCommand_of_legality_none hdec hrun, acceptCommand_of_legality_none hdec hrun, ?_⟩
    rw [effect_rsp, effect_rsp, doutOf_eq_of_digest_lanes_eq hrun hS]

/-- Settles O37: whether a command errs is a matter of its word and the phase (`commandError`), and of those that run only RDSTAT
reads the error state. -/
theorem errorStateDoesNotChangeResults : Obligations.ErrorStateDoesNotChangeResults := by
  unfold Obligations.ErrorStateDoesNotChangeResults
  intro c s e k
  rcases command_errs_or_runs c s.phase with ⟨code, hcode⟩ | ⟨i, hdec, hrun⟩
  · exact ⟨_, _, acceptCommand_of_commandError hcode, acceptCommand_of_commandError hcode, rfl, rfl, fun _ => rfl⟩
  · refine ⟨_, _, acceptCommand_of_legality_none hdec hrun, acceptCommand_of_legality_none hdec hrun, ?_⟩
    cases i with
    | init => exact ⟨rfl, rfl, fun _ => rfl⟩
    | absorb n din => exact ⟨rfl, rfl, fun _ => rfl⟩
    | finalize => exact ⟨rfl, rfl, fun _ => rfl⟩
    | rddig k => exact ⟨rfl, rfl, fun _ => rfl⟩
    | rdstat => exact ⟨rfl, rfl, fun hstat => absurd hdec hstat⟩

end Sys2Proof.Machine
end

section
/-! PROOFS. The layout of the status word (spec/10_state.md R32). -/

namespace Sys2Proof.Machine

/-- A field of `STATUS`: the bits of `x` from bit `lo` on, zeros around them; `statusWord_eq_fields` ties it to the model. -/
def fieldAt {n : Nat} (lo : Nat) (x : BitVec n) : Lane := x.setWidth 64 <<< lo

theorem extractLsb'_fieldAt_same {n lo : Nat} (x : BitVec n) (h : lo + n ≤ 64) :
    (fieldAt lo x).extractLsb' lo n = x := by
  refine BitVec.eq_of_getLsbD_eq fun i hi => ?_
  have hin : lo + i < 64 := by omega
  simp [fieldAt, hi, hin]

/-- Bits outside a field are 0. -/
theorem extractLsb'_fieldAt_disjoint {n lo start len : Nat} (x : BitVec n) (h : start + len ≤ lo ∨ lo + n ≤ start) :
    (fieldAt lo x).extractLsb' start len = 0 := by
  refine BitVec.eq_of_getLsbD_eq fun i hi => ?_
  rcases h with hbelow | habove
  · have hlow : start + i < lo := by omega
    simp [fieldAt, hlow]
  · have hhigh := BitVec.getLsbD_of_ge x (start + i - lo) (by omega)
    simp [fieldAt, hhigh]

/-- R32: `STATUS` as its fields. -/
theorem statusWord_eq_fields (s : State) :
    statusWord s =
      fieldAt 0 (BitVec.ofNat 5 s.ctx.wordIndex.val) ||| fieldAt 5 (BitVec.ofNat 3 s.ctx.byteIndex.val) |||
        fieldAt 8 s.phase.code ||| fieldAt 10 (BitVec.ofBool s.err) ||| fieldAt 16 s.errCode.code := by
  have hword : (BitVec.ofNat 5 s.ctx.wordIndex.val).setWidth 64 = BitVec.ofNat 64 s.ctx.wordIndex.val :=
    BitVec.setWidth_ofNat_of_le_of_lt (by decide) (by omega)
  have hbyte : (BitVec.ofNat 3 s.ctx.byteIndex.val).setWidth 64 = BitVec.ofNat 64 s.ctx.byteIndex.val :=
    BitVec.setWidth_ofNat_of_le_of_lt (by decide) s.ctx.byteIndex.isLt
  simp only [statusWord, fieldAt, hword, hbyte, BitVec.shiftLeft_zero]

/-- Settles O32: a field is read back from its own place, and every other field has no bit there. -/
theorem statusWordLayout : Obligations.StatusWordLayout := by
  unfold Obligations.StatusWordLayout
  refine ⟨fun s => ?_, rfl, rfl, rfl, rfl, rfl, rfl, rfl, rfl, rfl, by decide, fun s t hinit => ?_⟩
  · have herr : (statusWord s).getLsbD 10 = ((statusWord s).extractLsb' 10 1).getLsbD 0 := by simp
    rw [herr]
    simp [statusWord_eq_fields, BitVec.extractLsb'_or, extractLsb'_fieldAt_same, extractLsb'_fieldAt_disjoint]
  · injection hinit with ht
    have hfields : statusWord t = statusWord { State.reset with phase := .absorbing } := ht ▸ rfl
    rw [hfields]
    decide

end Sys2Proof.Machine
end

section
/-! PROOFS. What the first `n` bytes of `DIN`, at most 8, make of a context, in closed form (spec/41_absorb.md R131, R132), and so what
an ABSORB leaves unchanged (spec/10_state.md R21) and when a command runs the permutation (spec/40_permutation.md R110). -/

namespace Sys2Proof.Machine

/-! ### The low bytes of `DIN` -/

/-- `DIN[8n-1:0]`, the bytes an ABSORB `n` reads, zeros above; `absorbBytes_of_stores` and `absorbBytes_of_completes` tie it to the model. -/
def lowBytes (din : Lane) (n : Nat) : Lane := din &&& (BitVec.allOnes 64 >>> (64 - 8 * n))

theorem getLsbD_lowBytes (din : Lane) {n : Nat} (hn : n ≤ 8) (i : Nat) :
    (lowBytes din n).getLsbD i = (din.getLsbD i && decide (i < 8 * n)) := by
  have hmask : 64 - 8 * n + i < 64 ↔ i < 8 * n := by omega
  rw [lowBytes, BitVec.getLsbD_and, BitVec.getLsbD_ushiftRight, BitVec.getLsbD_allOnes, decide_eq_decide.mpr hmask]

@[simp] theorem lowBytes_zero (din : Lane) : lowBytes din 0 = 0 := by
  refine BitVec.eq_of_getLsbD_eq fun i _ => ?_
  simp [getLsbD_lowBytes]

theorem lowBytes_succ (din : Lane) {n : Nat} (hn : n < 8) :
    lowBytes din (n + 1) = lowBytes din n ^^^ (zext64 (byteOf din n) <<< (8 * n)) := by
  refine BitVec.eq_of_getLsbD_eq fun i hi => ?_
  rw [BitVec.getLsbD_xor, BitVec.getLsbD_shiftLeft, zext64_getLsbD, getLsbD_lowBytes din (by omega), getLsbD_lowBytes din (by omega)]
  rcases Nat.lt_or_ge i (8 * n) with hlow | hge
  · have hnext : i < 8 * (n + 1) := by omega
    simp [hlow, hnext]
  · have hbelow : ¬ i < 8 * n := by omega
    rcases Nat.lt_or_ge i (8 * (n + 1)) with hbyte | habove
    · rw [byteOf_getLsbD din n (i - 8 * n) (by omega), Nat.add_sub_cancel' hge]
      simp [hbelow, hbyte, hi]
    · have hout : ¬ i < 8 * (n + 1) := by omega
      simp [hbelow, hout, BitVec.getLsbD_of_ge (byteOf din n) (i - 8 * n) (by omega)]

/-- A byte in the lane, moved down without losing a bit. -/
theorem zext64_shiftLeft_ushiftRight (b : Byte) {n k : Nat} (hn : n < 8) (hk : k ≤ 8 * n) :
    (zext64 b <<< (8 * n)) >>> k = zext64 b <<< (8 * n - k) := by
  refine BitVec.eq_of_getLsbD_eq fun i hi => ?_
  have hplace : k + i - 8 * n = i - (8 * n - k) := by omega
  have hbelow : (k + i < 8 * n) = (i < 8 * n - k) := propext (by omega)
  rcases Nat.lt_or_ge (k + i) 64 with hin | hout
  · simp [hplace, hbelow, hin, hi]
  · have hbit := BitVec.getLsbD_of_ge b (i - (8 * n - k)) (by omega)
    simp [hplace, zext64_getLsbD, hbit]

/-! ### The context after the bytes -/

/-- One more byte in the partial lane. -/
theorem savedWord_xor_lowBytes_succ (v din : Lane) {n : Nat} (hn : n < 8) (b : Nat) :
    v ^^^ (lowBytes din n <<< (8 * b)) ^^^ (zext64 (byteOf din n) <<< (8 * (b + n))) =
      v ^^^ (lowBytes din (n + 1) <<< (8 * b)) := by
  have hplace : 8 * (b + n) = 8 * n + 8 * b := by omega
  rw [lowBytes_succ din hn, BitVec.shiftLeft_xor_distrib, hplace, BitVec.shiftLeft_add, BitVec.xor_assoc]

theorem absorbBytes_dataBytes_succ (c : HashContext) (din : Lane) (n : Nat) :
    absorbBytes c (dataBytes din (n + 1)) = absorbByte (absorbBytes c (dataBytes din n)) (byteOf din n) := by
  rw [dataBytes_succ, absorbBytes_append, absorbBytes_cons, absorbBytes_nil]

/-- Bytes that do not fill the lane go into `savedWord`. -/
theorem absorbBytes_of_stores (c : HashContext) (din : Lane) {n : Nat} (h : c.byteIndex.val + n < 8) :
    absorbBytes c (dataBytes din n) =
      { c with savedWord := c.savedWord ^^^ (lowBytes din n <<< (8 * c.byteIndex.val)), byteIndex := ⟨c.byteIndex.val + n, h⟩ } := by
  induction n with
  | zero => simp
  | succ n ih =>
    have hopen : (⟨c.byteIndex.val + n, by omega⟩ : Fin 8) ≠ 7 :=
      Fin.ne_of_val_ne (show c.byteIndex.val + n ≠ 7 by omega)
    rw [absorbBytes_dataBytes_succ, ih (by omega), absorbByte_stores _ _ hopen]
    refine HashContext.eq_of_fields rfl rfl (Fin.ext (val_byteIndex_succ hopen)) ?_
    exact savedWord_xor_lowBytes_succ _ _ (by omega) _

/-- `lowBytes` shifted past the lane's top byte no longer depends on the bytes shifted out. -/
theorem lowBytes_succ_shiftLeft (din : Lane) {n b : Nat} (hn : n < 8) (h : 8 ≤ b + n) :
    lowBytes din (n + 1) <<< (8 * b) = lowBytes din n <<< (8 * b) := by
  have hout : zext64 (byteOf din n) <<< (8 * n) <<< (8 * b) = 0#64 := by
    rw [← BitVec.shiftLeft_add]
    exact BitVec.shiftLeft_eq_zero (by omega)
  rw [lowBytes_succ din hn, BitVec.shiftLeft_xor_distrib, hout, BitVec.xor_zero]

/-- One more byte in the lane after the one that was completed. -/
theorem lowBytes_succ_ushiftRight (din : Lane) {n b : Nat} (hb : b < 8) (hn : n < 8) (h : 8 ≤ b + n) :
    lowBytes din n >>> (8 * (8 - b)) ^^^ (zext64 (byteOf din n) <<< (8 * (b + n - 8))) =
      lowBytes din (n + 1) >>> (8 * (8 - b)) := by
  have hplace : 8 * (b + n - 8) = 8 * n - 8 * (8 - b) := by omega
  rw [lowBytes_succ din hn, BitVec.ushiftRight_xor_distrib, zext64_shiftLeft_ushiftRight _ hn (by omega), hplace]

theorem lowBytes_ushiftRight_eq_zero (din : Lane) {n : Nat} (hn : n ≤ 8) : lowBytes din n >>> (8 * n) = 0 := by
  refine BitVec.eq_of_getLsbD_eq fun i _ => ?_
  simp [getLsbD_lowBytes din hn]

/-- Bytes that fill the lane complete it; those that are left over start the next one. -/
theorem absorbBytes_of_completes (c : HashContext) (din : Lane) {n : Nat} (hn : n ≤ 8) (h : 8 ≤ c.byteIndex.val + n) :
    absorbBytes c (dataBytes din n) =
      { completeLane c (c.savedWord ^^^ (lowBytes din n <<< (8 * c.byteIndex.val))) with
        savedWord := lowBytes din n >>> (8 * (8 - c.byteIndex.val))
        byteIndex := ⟨c.byteIndex.val + n - 8, by omega⟩ } := by
  induction n with
  | zero => omega
  | succ n ih =>
    rw [absorbBytes_dataBytes_succ]
    rcases Nat.lt_or_ge (c.byteIndex.val + n) 8 with hstores | hcompleted
    · have hlast : (⟨c.byteIndex.val + n, hstores⟩ : Fin 8) = 7 := Fin.ext (show c.byteIndex.val + n = 7 by omega)
      have hrest : 8 - c.byteIndex.val = n + 1 := by omega
      rw [absorbBytes_of_stores c din hstores, absorbByte_completes _ _ hlast, savedWith,
        savedWord_xor_lowBytes_succ _ _ (by omega), hrest, lowBytes_ushiftRight_eq_zero din hn]
      refine HashContext.eq_of_fields rfl rfl ?_ ?_
      · rw [completeLane_byteIndex]
        exact Fin.ext (show 0 = c.byteIndex.val + (n + 1) - 8 by omega)
      · exact completeLane_savedWord _ _
    · have hopen : (⟨c.byteIndex.val + n - 8, by omega⟩ : Fin 8) ≠ 7 :=
        Fin.ne_of_val_ne (show c.byteIndex.val + n - 8 ≠ 7 by omega)
      rw [ih (by omega) hcompleted, absorbByte_stores _ _ hopen, lowBytes_succ_shiftLeft din (by omega) hcompleted]
      refine HashContext.eq_of_fields rfl rfl (Fin.ext ?_) ?_
      · rw [val_byteIndex_succ hopen]
        exact (show c.byteIndex.val + n - 8 + 1 = c.byteIndex.val + (n + 1) - 8 by omega)
      · exact lowBytes_succ_ushiftRight din c.byteIndex.isLt (by omega) hcompleted

/-! ### Permutations -/

theorem permutationsIn_append (c : HashContext) (as bs : List Byte) :
    permutationsIn c (as ++ bs) = permutationsIn c as + permutationsIn (absorbBytes c as) bs := by
  induction as generalizing c with
  | nil => simp [permutationsIn]
  | cons a as ih => simp [permutationsIn, ih, Nat.add_assoc]

/-- Of up to 8 bytes, the one that fills the block is the one that ends lane 16. -/
theorem fillsBlock_absorbBytes (c : HashContext) (din : Lane) {n : Nat} (hn : n < 8) :
    fillsBlock (absorbBytes c (dataBytes din n)) = decide (c.byteIndex.val + n = 7 ∧ c.wordIndex = 16) := by
  unfold fillsBlock
  refine decide_eq_decide.mpr ?_
  rcases Nat.lt_or_ge (c.byteIndex.val + n) 8 with hstores | hcompletes
  · rw [absorbBytes_of_stores c din hstores, Fin.ext_iff]
    exact Iff.rfl
  · rw [absorbBytes_of_completes c din (by omega) hcompletes, Fin.ext_iff]
    exact iff_of_false (fun ⟨hlast, _⟩ => absurd hlast (show c.byteIndex.val + n - 8 ≠ 7 by omega)) (by omega)

theorem permutationsIn_dataBytes (c : HashContext) (din : Lane) {n : Nat} (hn : n ≤ 8) :
    permutationsIn c (dataBytes din n) = if 8 ≤ c.byteIndex.val + n ∧ c.wordIndex = 16 then 1 else 0 := by
  induction n with
  | zero =>
    have hopen : ¬ 8 ≤ c.byteIndex.val := by omega
    simp [permutationsIn, hopen]
  | succ n ih =>
    rw [dataBytes_succ, permutationsIn_append, ih (by omega)]
    simp only [permutationsIn, fillsBlock_absorbBytes c din (show n < 8 by omega), decide_eq_true_eq]
    by_cases hw : c.wordIndex = 16
    · simp only [hw, and_true]
      split_ifs <;> omega
    · simp [hw]

theorem commandPermutations_of_commandError {c : Command} {s : State} {k : ErrCode} (h : commandError c s.phase = some k) :
    commandPermutations c s = 0 := by
  rcases hdec : decode c with r | i
  · simp [commandPermutations, hdec]
  · rw [commandError_of_decode hdec] at h
    simp [commandPermutations, hdec, Instr.permutations, h]

/-- The permutations of an instruction that runs; `commandPermutations_of_legality_none` ties it to the model's count. -/
def effectPermutations : Instr → HashContext → Nat
  | .absorb n din, c => permutationsIn c (dataBytes din (absorbCount n))
  | .finalize, _ => 1
  | _, _ => 0

theorem commandPermutations_of_legality_none {c : Command} {s : State} {i : Instr} (hdec : decode c = .ok i)
    (hrun : legality i s.phase = none) : commandPermutations c s = effectPermutations i s.ctx := by
  have hcount : commandPermutations c s = Instr.permutations i s := by rw [commandPermutations, hdec]
  rw [hcount]
  unfold Instr.permutations
  rw [hrun]
  cases i <;> rfl

/-! ### What stays as it was -/

/-- A value XORed into a rate lane reaches no capacity lane. -/
theorem xorLane_rateLane_getElem_capacity (S : Lanes) (w : Fin 17) (v : Lane) {i : Nat} (hi : i < 25) (hcap : 17 ≤ i) :
    (xorLane S (rateLane w) v)[i] = S[i] := by
  have hword : w.val ≠ i := by omega
  rw [xorLane_getElem, rateLane_val, if_neg hword]

/-- Neither padding XOR reaches a capacity lane. -/
theorem padLanes_getElem_capacity (c : HashContext) {i : Nat} (hi : i < 25) (hcap : 17 ≤ i) : (padLanes c)[i] = c.S[i] := by
  have hlast : (16 : Fin 25).val ≠ i := show 16 ≠ i by omega
  rw [padLanes, xorLane_getElem, if_neg hlast, xorLane_rateLane_getElem_capacity _ _ _ hi hcap]

/-- Bytes that fill the block leave `KeccakF` of the lanes with lane 16 completed. -/
theorem absorbBytes_S_of_fills {c : HashContext} (din : Lane) {n : Nat} (hn : n ≤ 8) (hcompletes : 8 ≤ c.byteIndex.val + n)
    (hw : c.wordIndex = 16) :
    (absorbBytes c (dataBytes din n)).S =
      keccakF (xorLane c.S (rateLane c.wordIndex) (c.savedWord ^^^ (lowBytes din n <<< (8 * c.byteIndex.val)))) := by
  rw [absorbBytes_of_completes c din hn hcompletes, completeLane_last c _ hw]

/-- Without a permutation, the bytes of a command change no lane but the one they complete. -/
theorem absorbBytes_getElem_of_not_fills {c : HashContext} {n i : Nat} (hn : n ≤ 8) (hi : i < 25) (din : Lane)
    (hfull : ¬ (8 ≤ c.byteIndex.val + n ∧ c.wordIndex = 16)) (hlane : c.byteIndex.val + n < 8 ∨ i ≠ c.wordIndex.val) :
    (absorbBytes c (dataBytes din n)).S[i] = c.S[i] := by
  rcases Nat.lt_or_ge (c.byteIndex.val + n) 8 with hstores | hcompletes
  · simp only [absorbBytes_of_stores c din hstores]
  · have hother : c.wordIndex.val ≠ i := by omega
    simp only [absorbBytes_of_completes c din hn hcompletes, completeLane_next c _ fun hw => hfull ⟨hcompletes, hw⟩]
    rw [xorLane_getElem, rateLane_val, if_neg hother]

/-- Settles O16: an ABSORB that errs changes only the flags, and one that runs the context, by `absorbBytes_getElem_of_not_fills`. -/
theorem absorbFrame : Obligations.AbsorbFrame := by
  unfold Obligations.AbsorbFrame
  intro n din s t hexec
  rcases exec_absorb_cases hexec with ⟨k, rfl⟩ | ⟨hn, rfl⟩
  · exact ⟨rfl, rfl, nofun, fun _ _ _ _ => rfl⟩
  · refine ⟨rfl, effect_host _ s, fun _ => ⟨rfl, rfl, rfl⟩, fun hblock i hi hlane => ?_⟩
    have hopen : ¬ (8 ≤ s.ctx.byteIndex.val + n.toNat ∧ s.ctx.wordIndex = 16) := fun ⟨hbyte, hword⟩ => by
      have hlast : s.ctx.wordIndex.val = 16 := congrArg Fin.val hword
      omega
    exact absorbBytes_getElem_of_not_fills hn hi din hopen (by omega)

/-- Settles O44: an error runs none, and of the commands that run a FINALIZE runs one and an ABSORB one exactly if its bytes fill the
block (`permutationsIn_dataBytes`). -/
theorem capacityChangesOnlyByPermutation : Obligations.CapacityChangesOnlyByPermutation := by
  unfold Obligations.CapacityChangesOnlyByPermutation
  intro c s t haccept
  rcases acceptCommand_cases haccept with ⟨k, hk, rfl⟩ | ⟨i, hdec, hrun, rfl⟩
  · rw [commandPermutations_of_commandError hk]
    exact ⟨by decide, fun _ _ _ _ _ => rfl, nofun⟩
  · rw [commandPermutations_of_legality_none hdec hrun]
    cases i with
    | init => exact ⟨Nat.zero_le 1, fun _ hinit => absurd hdec hinit, nofun⟩
    | absorb n din =>
      have hn := absorbCount_le_of_decode hdec
      have hcount : effectPermutations (.absorb n din) s.ctx =
          if 8 ≤ s.ctx.byteIndex.val + n.toNat ∧ s.ctx.wordIndex = 16 then 1 else 0 := permutationsIn_dataBytes s.ctx din hn
      rw [hcount]
      split_ifs with hfull
      · obtain ⟨hcompletes, hw⟩ := hfull
        exact ⟨Nat.le_refl 1, nofun, fun _ => ⟨_, absorbBytes_S_of_fills din hn hcompletes hw,
          fun j hj hcap => xorLane_rateLane_getElem_capacity _ _ _ hj hcap,
          .inr ⟨n, din, hdec, congrArg Fin.val hw, hcompletes, rfl⟩⟩⟩
      · exact ⟨Nat.zero_le 1, fun _ _ j hj hcap => absorbBytes_getElem_of_not_fills hn hj din hfull (.inr (by omega)), nofun⟩
    | finalize =>
      exact ⟨Nat.le_refl 1, nofun, fun _ => ⟨padLanes s.ctx, rfl, fun j hj hcap => padLanes_getElem_capacity s.ctx hj hcap,
        .inl ⟨hdec, rfl⟩⟩⟩
    | rddig k => exact ⟨Nat.zero_le 1, fun _ _ _ _ _ => rfl, nofun⟩
    | rdstat => exact ⟨Nat.zero_le 1, fun _ _ _ _ _ => rfl, nofun⟩

end Sys2Proof.Machine
end

section
/-! PROOFS. Absorption with every byte XORed into the state at once (spec/10_state.md R34). -/

namespace Sys2Proof.Machine

/-- What a core that XORs each byte into the state at once holds in place of a context: the partial lane already in its lane.
`eagerByte_eager` ties it to the model. -/
def HashContext.eager (c : HashContext) : HashContext :=
  { c with S := xorLane c.S (rateLane c.wordIndex) c.savedWord, savedWord := 0 }

/-- Two XORs into one lane are one. -/
theorem xorLane_xorLane (S : Lanes) (i : Fin 25) (v w : Lane) : xorLane (xorLane S i v) i w = xorLane S i (v ^^^ w) := by
  simp [xorLane, BitVec.xor_assoc]

@[simp] theorem xorLane_zero (S : Lanes) (i : Fin 25) : xorLane S i 0 = S := by
  simp [xorLane]

/-- A context without a partial lane is the same in both cores. -/
theorem HashContext.eager_of_savedWord_zero {c : HashContext} (h : c.savedWord = 0) : c.eager = c :=
  HashContext.eq_of_fields (by rw [HashContext.eager, h, xorLane_zero]) rfl rfl h.symm

/-- The byte joins the partial lane before or after that lane is XORed into the state: the same lanes. -/
theorem xorLane_savedWith (c : HashContext) (b : Byte) :
    xorLane c.eager.S (rateLane c.wordIndex) (zext64 b <<< (8 * c.byteIndex.val)) =
      xorLane c.S (rateLane c.wordIndex) (savedWith c b) := xorLane_xorLane _ _ _ _

/-- One byte in both cores. -/
theorem eagerByte_eager (c : HashContext) (b : Byte) : eagerByte c.eager b = (absorbByte c b).eager := by
  have hlanes := xorLane_savedWith c b
  by_cases hb : c.byteIndex = 7
  · rw [absorbByte_completes c b hb, HashContext.eager_of_savedWord_zero (completeLane_savedWord _ _)]
    by_cases hw : c.wordIndex = 16
    · rw [completeLane_last c _ hw, ← hlanes]
      simp [eagerByte, HashContext.eager, hb, hw]
    · rw [completeLane_next c _ hw, ← hlanes]
      simp [eagerByte, HashContext.eager, hb, hw]
  · rw [absorbByte_stores c b hb]
    simp [eagerByte, HashContext.eager, hb, xorLane_xorLane, savedWith]

theorem eagerBytes_eager (c : HashContext) (bs : List Byte) : eagerBytes c.eager bs = (absorbBytes c bs).eager := by
  induction bs generalizing c with
  | nil => rfl
  | cons b bs ih =>
    calc eagerBytes c.eager (b :: bs)
        = eagerBytes (eagerByte c.eager b) bs := rfl
      _ = eagerBytes (absorbByte c b).eager bs := by rw [eagerByte_eager]
      _ = (absorbBytes c (b :: bs)).eager := ih _

theorem padLanes_eager (c : HashContext) : padLanes c.eager = padLanes c := by
  simp [padLanes, HashContext.eager, xorLane_xorLane]

/-- Settles O22: after any message the other core holds the `eager` context, whose padded lanes are the same. -/
theorem eagerAbsorptionGivesSameDigest : Obligations.EagerAbsorptionGivesSameDigest := by
  unfold Obligations.EagerAbsorptionGivesSameDigest
  intro m c e
  have he : e = c.eager := by
    have hzero : HashContext.zero.eager = HashContext.zero := HashContext.eager_of_savedWord_zero rfl
    exact (congrArg (eagerBytes · m) hzero).symm.trans (eagerBytes_eager _ m)
  have hpad : padLanes e = padLanes c := he ▸ padLanes_eager c
  refine ⟨he ▸ rfl, he ▸ rfl, he ▸ rfl, hpad, ?_⟩
  rw [finalizeContext_S, finalizeContext_S, hpad]

end Sys2Proof.Machine
end

section
/-! PROOFS. Runs, event by event (spec/20_memory.md R59, spec/70_reset_and_hazards.md R236). -/

namespace Sys2Proof.Machine

/-- No command stops the core, whether it errs or runs (R200). -/
theorem exists_acceptCommand_eq_next (c : Command) (s : State) : ∃ t, acceptCommand c s = .next t := by
  rcases command_errs_or_runs c s.phase with ⟨k, hk⟩ | ⟨i, hdec, hrun⟩
  · exact ⟨_, acceptCommand_of_commandError hk⟩
  · exact ⟨_, acceptCommand_of_legality_none hdec hrun⟩

/-- No event of the host stops the core, nor does waiting for one (R200). -/
theorem exists_step_eq_next (s : State) : ∃ t, step s = .next t := by
  unfold step
  rcases hhost : s.host with - | ⟨e, rest⟩
  · exact ⟨s, hostStep_waits hhost⟩
  · cases e with
    | command c => exact hostStep_command hhost ▸ exists_acceptCommand_eq_next c _
    | reset => exact ⟨_, hostStep_reset hhost⟩
    | resetDuring c => exact ⟨_, hostStep_resetDuring hhost⟩

/-- No instruction's effect depends on what the host issues after it. -/
theorem effect_withHost (i : Instr) (s : State) (h : List HostEvent) : effect i (s.withHost h) = (effect i s).withHost h := by
  cases i <;> rfl

theorem acceptCommand_withHost {c : Command} {s t : State} (h : acceptCommand c s = .next t) (rest : List HostEvent) :
    acceptCommand c (s.withHost rest) = .next (t.withHost rest) := by
  rcases acceptCommand_cases h with ⟨k, hk, rfl⟩ | ⟨i, hdec, hrun, rfl⟩
  · exact acceptCommand_of_commandError hk
  · exact effect_withHost i s rest ▸ acceptCommand_of_legality_none hdec hrun

/-- A step takes the host's first event and nothing of the later ones (R59), which it leaves in the list. -/
theorem step_withHost_cons {e : HostEvent} {s t : State} (h : step (s.withHost [e]) = .next t) (rest : List HostEvent) :
    step (s.withHost (e :: rest)) = .next (t.withHost rest) := by
  cases e with
  | command c => exact acceptCommand_withHost h rest
  | reset =>
    injection h with h
    exact h ▸ rfl
  | resetDuring c =>
    injection h with h
    exact h ▸ rfl

/-- A run over two lists of events is the run over the first and then, on the state it left, the run over the second. -/
theorem runEvents_append (es fs : List HostEvent) (s : State) :
    runEvents (es ++ fs) s =
      ((runEvents es s).1 ++ (runEvents fs (runEvents es s).2).1, (runEvents fs (runEvents es s).2).2) := by
  induction es generalizing s with
  | nil => rfl
  | cons e es ih =>
    obtain ⟨t, hstep⟩ := exists_step_eq_next (s.withHost [e])
    rw [List.cons_append, runEvents_cons hstep, runEvents_cons hstep, ih, List.append_assoc]

/-- The interface's run goes on from the state its first step answers. -/
theorem run_succ_of_step {s t : State} (h : step s = .next t) (k : Nat) :
    Host.Core.run Sys2Proof.core (k + 1) s = Host.Core.run Sys2Proof.core k t := by
  have hcore : Sys2Proof.core.step s = .next t := h
  simp only [Host.Core.run, hcore]

/-- The machine's own steps, as many as the host has events to issue, end in the state of the run over these events. -/
theorem run_withHost_eq_runEvents (es : List HostEvent) (s : State) :
    Host.Core.run Sys2Proof.core es.length (s.withHost es) = .next ((runEvents es s).2.withHost []) := by
  induction es generalizing s with
  | nil => rfl
  | cons e es ih =>
    obtain ⟨t, hstep⟩ := exists_step_eq_next (s.withHost [e])
    rw [List.length_cons, run_succ_of_step (step_withHost_cons hstep es), ih, runEvents_cons hstep]

/-- Settles O46, by induction on the events: a step takes the first of them and nothing of the rest (`step_withHost_cons`). -/
theorem runsAreSequential : Obligations.RunsAreSequential := ⟨runEvents_append, run_withHost_eq_runEvents⟩

end Sys2Proof.Machine
end

section
/-! PROOFS. Which commands change the state when they run again and which change nothing (spec/20_memory.md R58), and an ABSORB in
closed form (R53, spec/41_absorb.md R131, R132). -/

namespace Sys2Proof.Machine

/-! ### Commands in the phase that allows them -/

theorem exec_absorb_of_absorbing {n : BitVec 4} (hn : n.toNat ≤ 8) (din : Lane) {s : State} (hphase : s.phase = .absorbing) :
    exec (.absorb n din) s = .next (effect (.absorb n din) s) :=
  exec_of_legality_none (decide_eq_true hn) (legality_absorb_eq_none.mpr hphase)

theorem exec_finalize_of_absorbing {s : State} (hphase : s.phase = .absorbing) :
    exec .finalize s = .next (effect .finalize s) :=
  exec_of_legality_none rfl (legality_finalize_eq_none.mpr hphase)

theorem exec_rddig_of_finalized (k : BitVec 2) {s : State} (hphase : s.phase = .finalized) :
    exec (.rddig k) s = .next (effect (.rddig k) s) :=
  exec_of_legality_none rfl (legality_rddig_eq_none.mpr hphase)

/-! ### An ABSORB in closed form -/

/-- All 8 bytes of `DIN` are `DIN`. -/
@[simp] theorem lowBytes_eight (din : Lane) : lowBytes din 8 = din := by
  refine BitVec.eq_of_getLsbD_eq fun i hi => ?_
  rw [getLsbD_lowBytes din (Nat.le_refl 8), decide_eq_true hi, Bool.and_true]

/-- Settles O15: the bytes stay in the lane (`absorbBytes_of_stores`) or complete it (`absorbBytes_of_completes`), and the lane they
complete is the 17th or an earlier one. -/
theorem absorbClosedForm : Obligations.AbsorbClosedForm := by
  unfold Obligations.AbsorbClosedForm
  intro n din s hn hphase b low w S'
  have hctx : (effect (.absorb n din) s).ctx = absorbBytes s.ctx (dataBytes din n.toNat) := rfl
  refine ⟨_, exec_absorb_of_absorbing hn din hphase, fun hstores => ?_, fun hcompletes => ?_, fun hcount hempty hsaved => ?_⟩
  · rw [hctx, absorbBytes_of_stores s.ctx din hstores]
    exact ⟨rfl, rfl, rfl, rfl⟩
  · rw [hctx, absorbBytes_of_completes s.ctx din hn hcompletes]
    refine ⟨rfl, rfl, fun hword => ?_, fun hword => ?_⟩
    · have hopen : s.ctx.wordIndex ≠ 16 := Fin.ne_of_val_ne hword.ne
      rw [completeLane_next _ _ hopen]
      refine ⟨rfl, ?_⟩
      rw [Fin.val_add_one]
      exact if_neg hopen
    · rw [completeLane_last _ _ (Fin.ext hword)]
      exact ⟨rfl, rfl⟩
  · subst hcount
    change s.ctx.savedWord ^^^ (lowBytes din 8 <<< (8 * b)) = din
    simp [hempty, hsaved]

/-! ### The place in the rate block -/

/-- The number of bytes the rate block in progress holds: the place of the next byte in it (R52). `blockPosition_absorbByte` ties it
to the model. -/
def HashContext.blockPosition (c : HashContext) : Nat := 8 * c.wordIndex.val + c.byteIndex.val

theorem HashContext.blockPosition_lt (c : HashContext) : c.blockPosition < 136 := by
  unfold HashContext.blockPosition
  omega

/-- Every byte moves on by one place, and the 136th begins a new block. -/
theorem blockPosition_absorbByte (c : HashContext) (b : Byte) :
    (absorbByte c b).blockPosition = (c.blockPosition + 1) % 136 := by
  unfold HashContext.blockPosition
  by_cases hbyte : c.byteIndex = 7
  · rw [absorbByte_completes c b hbyte, hbyte]
    by_cases hword : c.wordIndex = 16
    · rw [completeLane_last c _ hword, hword]
      simp
    · have hnext : (c.wordIndex + 1).val = c.wordIndex.val + 1 := by
        rw [Fin.val_add_one]
        exact if_neg hword
      rw [completeLane_next c _ hword, hnext]
      change 8 * (c.wordIndex.val + 1) + 0 = (8 * c.wordIndex.val + 7 + 1) % 136
      omega
  · have hnext := val_byteIndex_succ hbyte
    rw [absorbByte_stores c b hbyte, hnext]
    change 8 * c.wordIndex.val + (c.byteIndex.val + 1) = (8 * c.wordIndex.val + c.byteIndex.val + 1) % 136
    omega

theorem blockPosition_absorbBytes (c : HashContext) (bs : List Byte) :
    (absorbBytes c bs).blockPosition = (c.blockPosition + bs.length) % 136 := by
  induction bs generalizing c with
  | nil => exact (Nat.mod_eq_of_lt c.blockPosition_lt).symm
  | cons b bs ih =>
    rw [absorbBytes_cons, ih, blockPosition_absorbByte, Nat.mod_add_mod, List.length_cons, Nat.add_assoc, Nat.add_comm 1]

/-- Bytes that do not go once round the block leave another place in it. -/
theorem absorbBytes_ne_self (c : HashContext) {bs : List Byte} (hpos : 0 < bs.length) (hlt : bs.length < 136) :
    absorbBytes c bs ≠ c := by
  intro hsame
  have hmoved := blockPosition_absorbBytes c bs
  rw [hsame] at hmoved
  have hplace := c.blockPosition_lt
  omega

/-! ### Commands that run twice -/

/-- Settles O39: the reads write the response alone, an ABSORB 0 carries no byte, and after FINALIZE the phase is one in which R202 has a
code for FINALIZE. -/
theorem readsAndEmptyAbsorbChangeNothing : Obligations.ReadsAndEmptyAbsorbChangeNothing := by
  unfold Obligations.ReadsAndEmptyAbsorbChangeNothing
  intro s
  refine ⟨fun k hphase => ?_, ⟨effect .rdstat s, rfl, rfl, rfl⟩, fun din hphase => ?_, fun hphase => ?_⟩
  · have hagain : (effect (.rddig k) s).phase = .finalized := hphase
    exact ⟨_, exec_rddig_of_finalized k hphase, rfl, exec_rddig_of_finalized k hagain⟩
  · exact ⟨_, exec_absorb_of_absorbing (by decide) din hphase, rfl⟩
  · exact ⟨_, _, exec_finalize_of_absorbing hphase, rfl, rfl, rfl⟩

/-- Settles O55: the bytes of an ABSORB move on the place in the block (`absorbBytes_ne_self`), a second FINALIZE finds the phase
FINALIZED, and INIT writes constants alone. -/
theorem repeatedStateChangingCommands : Obligations.RepeatedStateChangingCommands := by
  unfold Obligations.RepeatedStateChangingCommands
  intro s
  refine ⟨fun n din hpos hn hphase => ?_, fun hphase => ?_, effect .init s, rfl, rfl⟩
  · have hmoves : ∀ c : HashContext, absorbBytes c (dataBytes din n.toNat) ≠ c := fun c =>
      absorbBytes_ne_self c (by rw [dataBytes_length]; omega) (by rw [dataBytes_length]; omega)
    have hagain : (effect (.absorb n din) s).phase = .absorbing := hphase
    exact ⟨_, _, exec_absorb_of_absorbing hn din hphase, exec_absorb_of_absorbing hn din hagain, hmoves _, hmoves _⟩
  · exact ⟨_, _, exec_finalize_of_absorbing hphase, rfl, rfl, rfl, rfl, rfl, rfl⟩

end Sys2Proof.Machine
end

section
/-! PROOFS. Where the bytes of a message land (spec/20_memory.md R52): in a lane, in a rate block, and in the blocks of a message. -/

namespace Sys2Proof.Machine

/-! ### Bytes in a lane -/

theorem packLane_append_singleton (bs : List Byte) (b : Byte) :
    packLane (bs ++ [b]) = packLane bs ^^^ (zext64 b <<< (8 * bs.length)) := by
  induction bs with
  | nil => simp [packLane_cons]
  | cons a bs ih =>
    rw [List.cons_append, packLane_cons, packLane_cons, ih, BitVec.shiftLeft_xor_distrib, ← BitVec.shiftLeft_add, BitVec.xor_assoc,
      List.length_cons, Nat.mul_succ]

/-- The first byte packed is the lane's byte 0. -/
theorem byteOf_packLane_cons_zero (b : Byte) (bs : List Byte) : byteOf (packLane (b :: bs)) 0 = b := by
  refine BitVec.eq_of_getLsbD_eq fun i hi => ?_
  rw [byteOf_getLsbD _ _ _ hi, packLane_cons, BitVec.getLsbD_xor, zext64_getLsbD]
  simp [hi]

/-- The bytes packed after it follow one byte further up. -/
theorem byteOf_packLane_cons_succ (b : Byte) (bs : List Byte) {j : Nat} (hj : j + 1 < 8) :
    byteOf (packLane (b :: bs)) (j + 1) = byteOf (packLane bs) j := by
  refine BitVec.eq_of_getLsbD_eq fun i hi => ?_
  have hin : 8 * (j + 1) + i < 64 := by omega
  have habove : ¬ 8 * (j + 1) + i < 8 := by omega
  have hplace : 8 * (j + 1) + i - 8 = 8 * j + i := by omega
  rw [byteOf_getLsbD _ _ _ hi, byteOf_getLsbD _ _ _ hi, packLane_cons, BitVec.getLsbD_xor, zext64_getLsbD,
    BitVec.getLsbD_of_ge b _ (by omega), BitVec.getLsbD_shiftLeft, hplace]
  simp [hin, habove]

/-- Byte `j` of a lane is the `j`-th byte packed into it. -/
theorem byteOf_packLane {bs : List Byte} {j : Nat} (hj : j < 8) (hb : j < bs.length) : byteOf (packLane bs) j = bs[j] := by
  induction bs generalizing j with
  | nil => exact absurd hb (Nat.not_lt_zero j)
  | cons b bs ih =>
    cases j with
    | zero => exact byteOf_packLane_cons_zero b bs
    | succ j =>
      rw [byteOf_packLane_cons_succ b bs hj, List.getElem_cons_succ]
      exact ih (by omega) (Nat.lt_of_succ_lt_succ hb)

/-! ### Bytes in a rate block -/

theorem xorBlock_getElem (S : Lanes) (block : List Byte) (i : Nat) (h : i < 25) :
    (xorBlock S block)[i] = if i < 17 then S[i] ^^^ packLane ((block.drop (8 * i)).take 8) else S[i] := by
  simp [xorBlock]

@[simp] theorem xorBlock_nil (S : Lanes) : xorBlock S [] = S := by
  refine Vector.ext fun i hi => ?_
  simp [xorBlock_getElem]

/-- The byte at place `q` of a block goes into byte `q mod 8` of lane `q div 8` (R52). -/
theorem byteOf_xorBlock (S : Lanes) (block : List Byte) {q : Nat} (hq : q < 136) (hb : q < block.length) :
    byteOf (xorBlock S block)[q / 8] (q % 8) = byteOf S[q / 8] (q % 8) ^^^ block[q] := by
  have hlane : q / 8 < 17 := by omega
  have hbyte : q % 8 < ((block.drop (8 * (q / 8))).take 8).length := by
    rw [List.length_take, List.length_drop]
    omega
  have hplace : 8 * (q / 8) + q % 8 = q := Nat.div_add_mod q 8
  have hpacked : byteOf (packLane ((block.drop (8 * (q / 8))).take 8)) (q % 8) = block[q] := by
    rw [byteOf_packLane (by omega) hbyte, List.getElem_take, List.getElem_drop]
    simp only [hplace]
  rw [xorBlock_getElem, if_pos hlane, byteOf, BitVec.extractLsb'_xor]
  exact congrArg (byteOf S[q / 8] (q % 8) ^^^ ·) hpacked

/-- A byte added to a block is packed into the lane of its place, after the lane's bytes before it. -/
theorem packLane_chunk_append_same {bs : List Byte} (b : Byte) {i : Nat} (hi : i = bs.length / 8) :
    packLane (((bs ++ [b]).drop (8 * i)).take 8) =
      packLane ((bs.drop (8 * i)).take 8) ^^^ (zext64 b <<< (8 * (bs.length % 8))) := by
  have hlength : (bs.drop (8 * i)).length = bs.length % 8 := by
    rw [List.length_drop]
    omega
  have hfits : (bs.drop (8 * i) ++ [b]).length ≤ 8 := by
    rw [List.length_append, hlength, List.length_singleton]
    omega
  rw [List.drop_append_of_le_length (by omega), List.take_of_length_le hfits, List.take_of_length_le (by omega),
    packLane_append_singleton, hlength]

/-- A byte added to a block leaves the bytes of the other lanes. -/
theorem chunk_append_other {bs : List Byte} (b : Byte) {i : Nat} (hi : i ≠ bs.length / 8) :
    ((bs ++ [b]).drop (8 * i)).take 8 = (bs.drop (8 * i)).take 8 := by
  rcases Nat.lt_or_gt_of_ne hi with hbefore | hafter
  · have hfull : 8 ≤ (bs.drop (8 * i)).length := by
      rw [List.length_drop]
      omega
    rw [List.drop_append_of_le_length (by omega), List.take_append_of_le_length hfull]
  · have hend : (bs ++ [b]).length ≤ 8 * i := by
      rw [List.length_append, List.length_singleton]
      omega
    rw [List.drop_of_length_le hend, List.drop_of_length_le (by omega)]

/-- A block with one more byte, as that byte XORed into the lane of its place. -/
theorem xorBlock_append_singleton (S : Lanes) {bs : List Byte} (b : Byte) {w : Fin 17} (hw : w.val = bs.length / 8) :
    xorBlock S (bs ++ [b]) = xorLane (xorBlock S bs) (rateLane w) (zext64 b <<< (8 * (bs.length % 8))) := by
  refine Vector.ext fun i hi => ?_
  rw [xorLane_getElem, rateLane_val, xorBlock_getElem, xorBlock_getElem]
  by_cases hlane : w.val = i
  · have hrate : i < 17 := hlane ▸ w.isLt
    rw [if_pos hlane, if_pos hrate, if_pos hrate, packLane_chunk_append_same b (hlane.symm.trans hw), BitVec.xor_assoc]
  · rw [if_neg hlane, chunk_append_other b fun hi => hlane (hw.trans hi.symm)]

end Sys2Proof.Machine
end

section
/-! PROOFS. The rate blocks of a message (spec/20_memory.md R52), with the partial lane already in the state (`HashContext.eager`). -/

namespace Sys2Proof.Machine

/-! ### The block in progress -/

theorem HashContext.wordIndex_val (c : HashContext) : c.wordIndex.val = c.blockPosition / 8 := by
  unfold HashContext.blockPosition
  omega

theorem HashContext.byteIndex_val (c : HashContext) : c.byteIndex.val = c.blockPosition % 8 := by
  unfold HashContext.blockPosition
  omega

/-- A byte that does not fill the block is XORed into the lane of its place, whether or not it completes that lane. -/
theorem eager_S_absorbByte_of_lt {c : HashContext} (h : c.blockPosition < 135) (b : Byte) :
    (absorbByte c b).eager.S = xorLane c.eager.S (rateLane c.wordIndex) (zext64 b <<< (8 * c.byteIndex.val)) := by
  rw [xorLane_savedWith]
  by_cases hbyte : c.byteIndex = 7
  · have hword : c.wordIndex ≠ 16 := fun hw => by
      rw [HashContext.blockPosition, hbyte, hw] at h
      exact absurd h (by decide)
    rw [absorbByte_completes c b hbyte, HashContext.eager_of_savedWord_zero (completeLane_savedWord _ _),
      completeLane_next c _ hword]
  · rw [absorbByte_stores c b hbyte]
    rfl

/-- The byte that fills the block is XORed into lane 16, and the permutation follows. -/
theorem eager_S_absorbByte_of_last {c : HashContext} (h : c.blockPosition = 135) (b : Byte) :
    (absorbByte c b).eager.S =
      keccakF (xorLane c.eager.S (rateLane c.wordIndex) (zext64 b <<< (8 * c.byteIndex.val))) := by
  have hbyte : c.byteIndex = 7 := Fin.ext (by rw [c.byteIndex_val, h]; rfl)
  have hword : c.wordIndex = 16 := Fin.ext (by rw [c.wordIndex_val, h]; rfl)
  rw [xorLane_savedWith, absorbByte_completes c b hbyte, HashContext.eager_of_savedWord_zero (completeLane_savedWord _ _),
    completeLane_last c _ hword]

/-- A byte after a beginning of the block goes where `xorBlock` puts it. -/
theorem xorLane_eq_xorBlock_append {c : HashContext} {S : Lanes} {bs : List Byte} (hS : c.eager.S = xorBlock S bs)
    (hpos : c.blockPosition = bs.length) (b : Byte) :
    xorLane c.eager.S (rateLane c.wordIndex) (zext64 b <<< (8 * c.byteIndex.val)) = xorBlock S (bs ++ [b]) := by
  rw [xorBlock_append_singleton S b (hpos ▸ c.wordIndex_val), c.byteIndex_val, hpos, hS]

theorem blockPosition_absorbBytes_of_lt {c : HashContext} (hstart : c.blockPosition = 0) {bs : List Byte} (hbs : bs.length < 136) :
    (absorbBytes c bs).blockPosition = bs.length := by
  rw [blockPosition_absorbBytes, hstart, Nat.zero_add, Nat.mod_eq_of_lt hbs]

/-- The bytes of a block that is not full yet. -/
theorem eager_S_absorbBytes_of_lt {c : HashContext} (hstart : c.blockPosition = 0) {bs : List Byte} (hbs : bs.length < 136) :
    (absorbBytes c bs).eager.S = xorBlock c.eager.S bs := by
  induction bs using List.reverseRecOn with
  | nil => simp
  | append_singleton bs b ih =>
    rw [List.length_append, List.length_singleton] at hbs
    have hpos := blockPosition_absorbBytes_of_lt hstart (show bs.length < 136 by omega)
    rw [absorbBytes_append, absorbBytes_cons, absorbBytes_nil, eager_S_absorbByte_of_lt (by omega)]
    exact xorLane_eq_xorBlock_append (ih (by omega)) hpos b

/-- A full block is followed by the permutation. -/
theorem eager_S_absorbBytes_of_full {c : HashContext} (hstart : c.blockPosition = 0) {bs : List Byte} (hbs : bs.length = 136) :
    (absorbBytes c bs).eager.S = keccakF (xorBlock c.eager.S bs) := by
  rcases List.eq_nil_or_concat' bs with rfl | ⟨init, b, rfl⟩
  · cases hbs
  · rw [List.length_append, List.length_singleton] at hbs
    have hpos := blockPosition_absorbBytes_of_lt hstart (show init.length < 136 by omega)
    rw [absorbBytes_append, absorbBytes_cons, absorbBytes_nil, eager_S_absorbByte_of_last (by omega),
      xorLane_eq_xorBlock_append (eager_S_absorbBytes_of_lt hstart (by omega)) hpos]

/-! ### The blocks of a message -/

/-- From the start of a block: the sponge over the full blocks, with the rest of the message XORed in. -/
theorem eager_S_absorbBytes {c : HashContext} (hstart : c.blockPosition = 0) (m : List Byte) :
    (absorbBytes c m).eager.S =
      xorBlock (spongeBlocks (m.length / 136) c.eager.S m) (m.drop (136 * (m.length / 136))) := by
  induction hk : m.length / 136 generalizing c m with
  | zero => exact eager_S_absorbBytes_of_lt hstart (by omega)
  | succ k ih =>
    have hblock : (m.take 136).length = 136 := by
      rw [List.length_take]
      omega
    have hrest : (m.drop 136).length / 136 = k := by
      rw [List.length_drop]
      omega
    have hnext : (absorbBytes c (m.take 136)).blockPosition = 0 := by
      rw [blockPosition_absorbBytes, hstart, hblock]
    calc (absorbBytes c m).eager.S
        = (absorbBytes (absorbBytes c (m.take 136)) (m.drop 136)).eager.S := by
          rw [← absorbBytes_append, List.take_append_drop]
      _ = xorBlock (spongeBlocks k (keccakF (xorBlock c.eager.S (m.take 136))) (m.drop 136)) ((m.drop 136).drop (136 * k)) := by
          rw [ih hnext _ hrest, eager_S_absorbBytes_of_full hstart hblock]
      _ = xorBlock (spongeBlocks (k + 1) c.eager.S m) (m.drop (136 * (k + 1))) := by
          rw [List.drop_drop, Nat.mul_succ, Nat.add_comm 136]
          rfl

/-- Settles O21: the byte of a block by `byteOf_xorBlock`, and the blocks of a message by induction on how many are full
(`eager_S_absorbBytes`). -/
theorem streamBytesLandInRateBlocks : Obligations.StreamBytesLandInRateBlocks := by
  unfold Obligations.StreamBytesLandInRateBlocks
  refine ⟨fun S block q hq hb => byteOf_xorBlock S block hq hb, fun m => ?_⟩
  have hzero : HashContext.zero.eager = HashContext.zero := HashContext.eager_of_savedWord_zero rfl
  have hblocks := eager_S_absorbBytes (c := HashContext.zero) rfl m
  rw [hzero] at hblocks
  exact hblocks

end Sys2Proof.Machine
end

section
/-! PROOFS. The decoder and the encoder (spec/30_encoding.md R70 to R74, R77), through the fields of a command word: a word with RSV 0 is
`cmdWord` of its ARG and OP, and the decoder looks at nothing else of it. -/

namespace Sys2Proof.Machine

/-! ### The fields of a word (R70) -/

@[simp] theorem opField_cmdWord (arg : BitVec 4) (op : BitVec 3) : opField (cmdWord arg op) = op :=
  BitVec.extractLsb'_append_eq_right

@[simp] theorem argField_cmdWord (arg : BitVec 4) (op : BitVec 3) : argField (cmdWord arg op) = arg := by
  rw [argField, cmdWord, BitVec.extractLsb'_append_eq_of_le (Nat.le_refl 3)]
  exact BitVec.extractLsb'_append_eq_right

@[simp] theorem rsvField_cmdWord (arg : BitVec 4) (op : BitVec 3) : rsvField (cmdWord arg op) = 0#1 := by
  rw [rsvField, cmdWord, BitVec.extractLsb'_append_eq_of_le (by decide)]
  exact BitVec.extractLsb'_append_eq_left

/-- The three fields are the whole word. -/
theorem cmdWord_of_fields {c : BitVec 8} (hrsv : rsvField c ≠ 1#1) : cmdWord (argField c) (opField c) = c := by
  have hzero : rsvField c = 0#1 := (BitVec.eq_zero_or_eq_one _).resolve_right hrsv
  rw [cmdWord, ← hzero, rsvField, argField, opField, BitVec.extractLsb'_append_extractLsb'_eq_extractLsb' (show 7 = 3 + 4 from rfl),
    BitVec.extractLsb'_append_extractLsb'_eq_extractLsb' (show 3 = 0 + 3 from rfl)]
  exact BitVec.extractLsb'_eq_self

theorem toNat_cmdWord (arg : BitVec 4) (op : BitVec 3) : (cmdWord arg op).toNat = op.toNat + 8 * arg.toNat := by
  rw [cmdWord, BitVec.toNat_append, BitVec.toNat_append, ← Nat.shiftLeft_add_eq_or_of_lt op.isLt,
    ← Nat.shiftLeft_add_eq_or_of_lt arg.isLt, Nat.shiftLeft_eq, Nat.shiftLeft_eq, BitVec.toNat_ofNat]
  omega

/-- RSV as the one bit it is. -/
theorem rsvField_eq_zero_iff {c : BitVec 8} : rsvField c = 0#1 ↔ c.getLsbD 7 = false := by
  rw [BitVec.getLsbD_eq_extractLsb', ← rsvField]
  rcases BitVec.eq_zero_or_eq_one (rsvField c) with h | h <;> simp [h]

/-- `ARG[3:2]` is `CMD[6:5]`. -/
theorem extractLsb'_argField (c : BitVec 8) : (argField c).extractLsb' 2 2 = c.extractLsb' 5 2 := by
  refine BitVec.eq_of_getLsbD_eq fun i hi => ?_
  have hin : 2 + i < 4 := by omega
  have hplace : 3 + (2 + i) = 5 + i := by omega
  simp [argField, hin, hplace]

/-- The words of R77 and R74 written as numbers: OP, and 8 for each unit of ARG. -/
theorem ofNat_add_eight_mul (op : BitVec 3) {n : Nat} (hn : n < 16) :
    BitVec.ofNat 8 (op.toNat + 8 * n) = cmdWord (BitVec.ofNat 4 n) op := by
  refine BitVec.eq_of_toNat_eq ?_
  rw [toNat_cmdWord, BitVec.toNat_ofNat, BitVec.toNat_ofNat]
  omega

/-- The lane index of a RDDIG is all of ARG when its upper half is 0 (R72). -/
theorem zero_append_digestIndex {arg : BitVec 4} (h : arg.extractLsb' 2 2 = 0) :
    (0#2 ++ arg.extractLsb' 0 2 : BitVec (2 + 2)) = arg := by
  rw [← show arg.extractLsb' 2 2 = 0#2 from h, BitVec.extractLsb'_append_extractLsb'_eq_extractLsb' (show 2 = 0 + 2 from rfl)]
  exact BitVec.extractLsb'_eq_self

/-! ### The decoder on the encoder's words (R71, R72) -/

theorem decode_cmdWord_init (din : Lane) : decode ⟨cmdWord 0 0b001#3, din⟩ = .ok .init := by
  simp [decode]

theorem decode_cmdWord_absorb {n : BitVec 4} (hn : absorbCountLegal n = true) (din : Lane) :
    decode ⟨cmdWord n 0b010#3, din⟩ = .ok (.absorb n din) := by
  simp [decode, hn]

theorem decode_cmdWord_finalize (din : Lane) : decode ⟨cmdWord 0 0b011#3, din⟩ = .ok .finalize := by
  simp [decode]

theorem decode_cmdWord_rddig (k : BitVec 2) (din : Lane) :
    decode ⟨cmdWord (0#2 ++ k : BitVec (2 + 2)) 0b100#3, din⟩ = .ok (.rddig k) := by
  have hupper : (0#2 ++ k : BitVec (2 + 2)).extractLsb' 2 2 = 0#2 := BitVec.extractLsb'_append_eq_left
  have hlower : (0#2 ++ k : BitVec (2 + 2)).extractLsb' 0 2 = k := BitVec.extractLsb'_append_eq_right
  simp [decode, hupper, hlower]

theorem decode_cmdWord_rdstat (din : Lane) : decode ⟨cmdWord 0 0b101#3, din⟩ = .ok .rdstat := by
  simp [decode]

/-- Settles O1, by the five instructions: the decoder finds in the encoder's word the fields it was made of. -/
theorem decodeEncodeRoundTrip : Obligations.DecodeEncodeRoundTrip := by
  unfold Obligations.DecodeEncodeRoundTrip
  intro i hwf
  cases i with
  | init => exact decode_cmdWord_init 0
  | absorb n din => exact decode_cmdWord_absorb hwf din
  | finalize => exact decode_cmdWord_finalize 0
  | rddig k => exact decode_cmdWord_rddig k 0
  | rdstat => exact decode_cmdWord_rdstat 0

/-- Settles O4: the words of R77 are the encoder's, by `ofNat_add_eight_mul`. -/
theorem opcodeWordsDecode : Obligations.OpcodeWordsDecode := by
  unfold Obligations.OpcodeWordsDecode
  intro v
  refine ⟨decode_cmdWord_init v, fun n hn => ?_, decode_cmdWord_finalize v, fun k hk => ?_, decode_cmdWord_rdstat v⟩
  · have hcount : absorbCountLegal (BitVec.ofNat 4 n) = true := decide_eq_true (by rw [BitVec.toNat_ofNat]; omega)
    exact ofNat_add_eight_mul 0b010#3 (show n < 16 by omega) ▸ decode_cmdWord_absorb hcount v
  · have harg : (0#2 ++ BitVec.ofNat 2 k : BitVec (2 + 2)) = BitVec.ofNat 4 k := by
      interval_cases k <;> rfl
    exact ofNat_add_eight_mul 0b100#3 (show k < 16 by omega) ▸ harg ▸ decode_cmdWord_rddig (BitVec.ofNat 2 k) v

/-! ### The decoder's words are the encoder's (R74) -/

/-- A word that decodes is the encoder's word for what it decodes to. -/
theorem encode_cmd_of_decode {c : Command} {i : Instr} (h : decode c = .ok i) : (encode i).cmd = c.cmd := by
  obtain ⟨hrsv, hcases⟩ := decode_ok_cases h
  have hword : ∀ {arg op}, argField c.cmd = arg → opField c.cmd = op → cmdWord arg op = c.cmd := by
    rintro _ _ rfl rfl
    exact cmdWord_of_fields hrsv
  obtain ⟨hop, harg, rfl⟩ | ⟨hop, -, rfl⟩ | ⟨hop, harg, rfl⟩ | ⟨hop, hupper, rfl⟩ | ⟨hop, harg, rfl⟩ := hcases
  · exact hword harg hop
  · exact hword rfl hop
  · exact hword harg hop
  · exact hword (zero_append_digestIndex hupper).symm hop
  · exact hword harg hop

/-- An ABSORB carries the `DIN` of its command (R73). -/
theorem din_of_decode_absorb {c : Command} {n : BitVec 4} {din : Lane} (h : decode c = .ok (.absorb n din)) : din = c.din := by
  obtain ⟨-, ⟨-, -, hi⟩ | ⟨-, -, hi⟩ | ⟨-, -, hi⟩ | ⟨-, -, hi⟩ | ⟨-, -, hi⟩⟩ := decode_ok_cases h <;> cases hi
  rfl

/-- Settles O3, from what the decoder looked at (`decode_ok_cases`). -/
theorem decodedCommandsReEncode : Obligations.DecodedCommandsReEncode := by
  unfold Obligations.DecodedCommandsReEncode
  intro c i hdec
  refine ⟨wf_of_decode hdec, encode_cmd_of_decode hdec, fun n din hi => ?_⟩
  subst hi
  exact din_of_decode_absorb hdec

/-! ### Legal words (R74, R75) -/

theorem legal_encode {i : Instr} (hwf : i.wf = true) : legal (encode i).cmd = true := by
  cases i with
  | init => exact Laws.EncodesLegal.init hwf
  | absorb n din => exact Laws.EncodesLegal.absorb n din hwf
  | finalize => exact Laws.EncodesLegal.finalize hwf
  | rddig k => exact Laws.EncodesLegal.rddig k hwf
  | rdstat => exact Laws.EncodesLegal.rdstat hwf

theorem absorbCountLegal_iff {n : BitVec 4} : absorbCountLegal n = true ↔ n.toNat ≤ 8 := decide_eq_true_iff

/-- `Legal` of R74, in the fields of the word. -/
theorem legal_iff {cmd : BitVec 8} : legal cmd = true ↔
    rsvField cmd = 0#1 ∧
      ((opField cmd = 0b001#3 ∧ argField cmd = 0#4) ∨
       (opField cmd = 0b010#3 ∧ absorbCountLegal (argField cmd) = true) ∨
       (opField cmd = 0b011#3 ∧ argField cmd = 0#4) ∨
       (opField cmd = 0b100#3 ∧ (argField cmd).extractLsb' 2 2 = 0#2) ∨
       (opField cmd = 0b101#3 ∧ argField cmd = 0#4)) := by
  simp only [legal, Bool.and_eq_true, Bool.or_eq_true, decide_eq_true_eq, or_assoc]
  rw [extractLsb'_argField, absorbCountLegal_iff]
  rfl

/-- The decoder accepts exactly the legal words, whatever `DIN` is. -/
theorem exists_decode_iff_legal {c : Command} : (∃ i, decode c = .ok i) ↔ legal c.cmd = true := by
  constructor
  · rintro ⟨i, hdec⟩
    exact encode_cmd_of_decode hdec ▸ legal_encode (wf_of_decode hdec)
  · intro hlegal
    obtain ⟨hrsv, ⟨hop, harg⟩ | ⟨hop, harg⟩ | ⟨hop, harg⟩ | ⟨hop, harg⟩ | ⟨hop, harg⟩⟩ := legal_iff.mp hlegal
    · exact ⟨.init, by simp [decode, hrsv, hop, harg]⟩
    · exact ⟨.absorb (argField c.cmd) c.din, by simp [decode, hrsv, hop, harg]⟩
    · exact ⟨.finalize, by simp [decode, hrsv, hop, harg]⟩
    · exact ⟨.rddig ((argField c.cmd).extractLsb' 0 2), by simp [decode, hrsv, hop, harg]⟩
    · exact ⟨.rdstat, by simp [decode, hrsv, hop, harg]⟩

theorem decode_of_not_legal {c : Command} (h : legal c.cmd = false) : ∃ r, decode c = .error r := by
  rcases hdec : decode c with r | i
  · exact ⟨r, rfl⟩
  · rw [exists_decode_iff_legal.mp ⟨i, hdec⟩] at h
    cases h

/-- The sixteen legal words as R74 lists them: INIT, ABSORB 0 to 8, FINALIZE, RDDIG 0 to 3, RDSTAT. -/
def legalWords : List (BitVec 8) :=
  [0x01#8, 0x02#8, 0x0A#8, 0x12#8, 0x1A#8, 0x22#8, 0x2A#8, 0x32#8, 0x3A#8, 0x42#8, 0x03#8, 0x04#8, 0x0C#8, 0x14#8, 0x1C#8, 0x05#8]

theorem encode_cmd_mem_legalWords {i : Instr} (hwf : i.wf = true) : (encode i).cmd ∈ legalWords := by
  cases i with
  | init => decide
  | absorb n din =>
    have hwords : ∀ n : BitVec 4, absorbCountLegal n = true → cmdWord n 0b010#3 ∈ legalWords := by decide
    exact hwords n hwf
  | finalize => decide
  | rddig k =>
    have hwords : ∀ k : BitVec 2, cmdWord (0#2 ++ k : BitVec (2 + 2)) 0b100#3 ∈ legalWords := by decide
    exact hwords k
  | rdstat => decide

theorem legal_iff_mem_legalWords {cmd : BitVec 8} : legal cmd = true ↔ cmd ∈ legalWords := by
  refine ⟨fun hlegal => ?_, fun hmem => ?_⟩
  · obtain ⟨i, hdec⟩ := exists_decode_iff_legal (c := ⟨cmd, 0⟩).mpr hlegal
    have hword : (encode i).cmd = cmd := encode_cmd_of_decode hdec
    exact hword ▸ encode_cmd_mem_legalWords (wf_of_decode hdec)
  · have hall : ∀ c ∈ legalWords, legal c = true := by decide
    exact hall cmd hmem

/-- Settles O2: the decoder accepts the legal words (`exists_decode_iff_legal`), which are the encoder's. -/
theorem decodeAcceptsExactlyLegalWords : Obligations.DecodeAcceptsExactlyLegalWords := by
  unfold Obligations.DecodeAcceptsExactlyLegalWords
  intro cmd din
  refine ⟨exists_decode_iff_legal.trans ?_, exists_decode_iff_legal, legal_iff_mem_legalWords⟩
  rw [legal_iff, rsvField_eq_zero_iff, absorbCountLegal_iff, extractLsb'_argField]
  rfl

/-- Settles O8: an illegal word is rejected, and R204 says what follows; two words for one instruction are both the encoder's word; and
outside ABSORBING the table of R202 has a code for ABSORB. -/
theorem illegalWordRaisesIllegalCmd : Obligations.IllegalWordRaisesIllegalCmd := by
  unfold Obligations.IllegalWordRaisesIllegalCmd
  refine ⟨fun s c rest hhost hillegal => ?_, fun c c' d i hdec hdec' => ?_, fun s d hphase => ?_⟩
  · obtain ⟨r, hrejected⟩ := decode_of_not_legal hillegal
    have hrecord : s.faultAfter .illegalCmd = s.faultRecord.or (some (.contractViolation .illegalCmd)) := by
      rw [State.faultAfter]
      cases s.faultRecord <;> rfl
    have hstep : step s = .next (illegalCommand (s.withHost rest)) :=
      (hostStep_command hhost).trans (acceptCommand_rejected hrejected _)
    rw [hstep]
    exact congrArg Host.Outcome.next (State.eq_of_fields rfl rfl rfl rfl rfl hrecord rfl)
  · exact (encode_cmd_of_decode hdec).symm.trans (encode_cmd_of_decode hdec')
  · rcases hlegal : legality (.absorb 0 d) s.phase with - | k
    · exact absurd (legality_absorb_eq_none.mp hlegal) hphase
    · exact ⟨_, exec_of_legality_some rfl hlegal, rfl, rfl⟩

end Sys2Proof.Machine
end

section
/-! PROOFS. The bytes a command carries: of `DIN` only those an ABSORB counts (spec/30_encoding.md R73), and the pseudo-command ABSORBB,
which carries the bytes of a list (R78). -/

namespace Sys2Proof.Machine

/-! ### What a command reads of `DIN` (R73) -/

/-- The instruction with another `DIN`; `decode_din` ties it to the decoder. -/
def Instr.withDin (din : Lane) : Instr → Instr
  | .absorb n _ => .absorb n din
  | i => i

/-- The decoder looks at the word alone, and passes `DIN` on. -/
theorem decode_din (cmd : BitVec 8) (d d' : Lane) : decode ⟨cmd, d'⟩ = (decode ⟨cmd, d⟩).map (Instr.withDin d') := by
  unfold decode
  split_ifs <;> rfl

theorem exec_absorb_congr {n : BitVec 4} {d d' : Lane} (h : dataBytes d n.toNat = dataBytes d' n.toNat) (s : State) :
    exec (.absorb n d) s = exec (.absorb n d') s := by
  simp [exec, execAbsorb, absorbCount, h]

theorem dataBytes_congr {d d' : Lane} {n : Nat} (h : ∀ j < n, byteOf d j = byteOf d' j) : dataBytes d n = dataBytes d' n :=
  List.map_congr_left fun j hj => h j (List.mem_range.mp hj)

theorem fields_of_decode_absorb {c : Command} {n : BitVec 4} {din : Lane} (h : decode c = .ok (.absorb n din)) :
    opField c.cmd = 0b010#3 ∧ argField c.cmd = n := by
  have hword : cmdWord n 0b010#3 = c.cmd := encode_cmd_of_decode h
  rw [← hword, opField_cmdWord, argField_cmdWord]
  exact ⟨rfl, rfl⟩

theorem commandBytes_of_decode {c : Command} {i : Instr} (h : decode c = .ok i) : commandBytes c = Instr.bytes i := by
  simp [commandBytes, h]

/-- Settles O5: two commands with one word decode to one instruction up to `DIN` (`decode_din`), which only an ABSORB has, and of which it
reads its first bytes. -/
theorem unusedDinIsIgnored : Obligations.UnusedDinIsIgnored := by
  unfold Obligations.UnusedDinIsIgnored
  refine ⟨fun cmd d d' s hbytes => ?_, fun n d hn => ?_⟩
  · have hdin := decode_din cmd d d'
    rcases hdec : decode ⟨cmd, d⟩ with r | i <;> rw [hdec] at hdin
    · rw [acceptCommand_rejected hdec, acceptCommand_rejected hdin]
    · rw [acceptCommand_ok hdec, acceptCommand_ok hdin]
      cases i with
      | init => rfl
      | absorb n din =>
        obtain rfl : din = d := din_of_decode_absorb hdec
        obtain ⟨hop, rfl⟩ := fields_of_decode_absorb hdec
        exact exec_absorb_congr (dataBytes_congr fun j hj => hbytes j hop hj) s
      | finalize => rfl
      | rddig k => rfl
      | rdstat => rfl
  · obtain ⟨-, habsorb, -⟩ := opcodeWordsDecode d
    have hcount : absorbCount (BitVec.ofNat 4 n) = n := Nat.mod_eq_of_lt (by omega)
    rw [commandBytes_of_decode (habsorb n hn), Instr.bytes, hcount]
    rfl

/-! ### One ABSORB of ABSORBB (R78) -/

theorem commandBytes_encode {i : Instr} (hwf : i.wf = true) : commandBytes (encode i) = Instr.bytes i :=
  commandBytes_of_decode (decodeEncodeRoundTrip i hwf)

theorem messageOf_map_encode {instrs : List Instr} (hwf : ∀ i ∈ instrs, i.wf = true) :
    messageOf (instrs.map encode) = instrs.flatMap Instr.bytes := by
  rw [messageOf, List.flatMap_map]
  exact List.flatMap_congr fun i hi => commandBytes_encode (hwf i hi)

theorem absorbs_encode_absorb {n : BitVec 4} (hn : absorbCountLegal n = true) (din : Lane) :
    absorbs (encode (.absorb n din)) = true := by
  simp [absorbs, decodeEncodeRoundTrip _ (show (Instr.absorb n din).wf = true from hn)]

/-- Up to 8 bytes are read back from the lane they were packed into. -/
theorem dataBytes_packLane {bs : List Byte} (h : bs.length ≤ 8) : dataBytes (packLane bs) bs.length = bs := by
  refine List.ext_getElem (dataBytes_length _ _) fun j hj hb => ?_
  rw [dataBytes_getElem, byteOf_packLane (by omega) hb]

theorem toNat_ofNat_length {bs : List Byte} (h : bs.length ≤ 8) : (BitVec.ofNat 4 bs.length).toNat = bs.length :=
  Nat.mod_eq_of_lt (by omega)

theorem absorbOf_wf {bs : List Byte} (h : bs.length ≤ 8) : (absorbOf bs).wf = true :=
  decide_eq_true (by rwa [toNat_ofNat_length h])

theorem absorbOf_bytes {bs : List Byte} (h : bs.length ≤ 8) : Instr.bytes (absorbOf bs) = bs := by
  rw [absorbOf, Instr.bytes, absorbCount, toNat_ofNat_length h, dataBytes_packLane h]

/-! ### The expansion of ABSORBB (R78) -/

/-- Bytes that fill no ABSORB 8 go into one ABSORB. -/
theorem expandAbsorbb_of_short {bs : List Byte} (hpos : bs ≠ []) (h : bs.length < 8) : expandAbsorbb bs = [absorbOf bs] := by
  rw [expandAbsorbb, Nat.div_eq_of_lt h, absorbbFrom, if_neg (by simpa using hpos)]

/-- The first 8 bytes go into an ABSORB 8 of their own. -/
theorem expandAbsorbb_append {chunk : List Byte} (h : chunk.length = 8) (rest : List Byte) :
    expandAbsorbb (chunk ++ rest) = absorbOf chunk :: expandAbsorbb rest := by
  have hcount : (chunk ++ rest).length / 8 = rest.length / 8 + 1 := by
    rw [List.length_append]
    omega
  rw [expandAbsorbb, hcount, absorbbFrom, List.take_left' h, List.drop_left' h, expandAbsorbb]

/-- Induction along the expansion: no bytes, a tail of less than 8, or 8 bytes before the rest. -/
theorem eightsInduction {motive : List Byte → Prop} (nil : motive [])
    (short : ∀ bs, bs ≠ [] → bs.length < 8 → motive bs)
    (append : ∀ chunk rest, chunk.length = 8 → motive rest → motive (chunk ++ rest)) (bs : List Byte) : motive bs := by
  rcases Nat.lt_or_ge bs.length 8 with hshort | hlong
  · rcases eq_or_ne bs [] with rfl | hpos
    · exact nil
    · exact short bs hpos hshort
  · rw [← List.take_append_drop 8 bs]
    exact append _ _ (List.length_take_of_le hlong) (eightsInduction nil short append (bs.drop 8))
termination_by bs.length
decreasing_by rw [List.length_drop]; omega

/-- Every command of the expansion is an ABSORB of at most 8 bytes. -/
theorem exists_absorbOf_of_mem_expandAbsorbb {bs : List Byte} {i : Instr} (h : i ∈ expandAbsorbb bs) :
    ∃ chunk, chunk.length ≤ 8 ∧ i = absorbOf chunk := by
  induction bs using eightsInduction with
  | nil => cases h
  | short bs hpos hshort =>
    rw [expandAbsorbb_of_short hpos hshort, List.mem_singleton] at h
    exact ⟨bs, by omega, h⟩
  | append chunk rest hchunk ih =>
    rw [expandAbsorbb_append hchunk, List.mem_cons] at h
    rcases h with h | h
    · exact ⟨chunk, by omega, h⟩
    · exact ih h

theorem wf_of_mem_expandAbsorbb {bs : List Byte} {i : Instr} (h : i ∈ expandAbsorbb bs) : i.wf = true := by
  obtain ⟨chunk, hchunk, rfl⟩ := exists_absorbOf_of_mem_expandAbsorbb h
  exact absorbOf_wf hchunk

theorem flatMap_bytes_expandAbsorbb (bs : List Byte) : (expandAbsorbb bs).flatMap Instr.bytes = bs := by
  induction bs using eightsInduction with
  | nil => rfl
  | short bs hpos hshort =>
    rw [expandAbsorbb_of_short hpos hshort, List.flatMap_singleton, absorbOf_bytes (by omega)]
  | append chunk rest hchunk ih =>
    rw [expandAbsorbb_append hchunk, List.flatMap_cons, absorbOf_bytes (by omega), ih]

/-- The byte counts: eights, and the tail unless it is empty. -/
theorem byteCounts_expandAbsorbb (bs : List Byte) :
    (expandAbsorbb bs).map (fun i => (Instr.bytes i).length) =
      List.replicate (bs.length / 8) 8 ++ (if bs.length % 8 = 0 then [] else [bs.length % 8]) := by
  induction bs using eightsInduction with
  | nil => rfl
  | short bs hpos hshort =>
    have hlength : bs.length ≠ 0 := by simpa using hpos
    rw [expandAbsorbb_of_short hpos hshort, Nat.div_eq_of_lt hshort, Nat.mod_eq_of_lt hshort, if_neg hlength,
      List.map_singleton, absorbOf_bytes (by omega)]
    rfl
  | append chunk rest hchunk ih =>
    have hdiv : (chunk ++ rest).length / 8 = rest.length / 8 + 1 := by
      rw [List.length_append]
      omega
    have hmod : (chunk ++ rest).length % 8 = rest.length % 8 := by
      rw [List.length_append]
      omega
    rw [expandAbsorbb_append hchunk, List.map_cons, absorbOf_bytes (by omega), hchunk, ih, hdiv, hmod, List.replicate_succ,
      List.cons_append]

/-- Settles O6, by induction along the expansion (`eightsInduction`); HASH is the list R78 writes, command by command. -/
theorem absorbbExpansionCarriesBytes : Obligations.AbsorbbExpansionCarriesBytes := by
  unfold Obligations.AbsorbbExpansionCarriesBytes
  intro bs
  refine ⟨?_, fun i hi => ⟨wf_of_mem_expandAbsorbb hi, ?_⟩, byteCounts_expandAbsorbb bs, ?_⟩
  · rw [messageOf_map_encode fun i hi => wf_of_mem_expandAbsorbb hi, flatMap_bytes_expandAbsorbb]
  · obtain ⟨chunk, hchunk, rfl⟩ := exists_absorbOf_of_mem_expandAbsorbb hi
    exact absorbs_encode_absorb (absorbOf_wf hchunk) _
  · simp [AsmLine.commands, expandHash]

end Sys2Proof.Machine
end

section
/-! PROOFS. The steps of a round lane by lane (spec/40_permutation.md R102 to R108): Theta, the pass of Rho and Pi, Chi, Iota and its
constants, and the round of the zero state. -/

namespace Sys2Proof.Machine

/-! ### Lane coordinates (R101) -/

theorem laneIndex_lt (x y : Fin 5) : x.val + 5 * y.val < 25 := by omega

@[simp] theorem xOf_laneIndex (x y : Fin 5) (h : x.val + 5 * y.val < 25) : xOf ⟨x.val + 5 * y.val, h⟩ = x := by
  apply Fin.ext
  simp only [xOf]
  omega

@[simp] theorem yOf_laneIndex (x y : Fin 5) (h : x.val + 5 * y.val < 25) : yOf ⟨x.val + 5 * y.val, h⟩ = y := by
  apply Fin.ext
  simp only [yOf]
  omega

theorem laneAt_xOf_yOf (S : Lanes) (i : Fin 25) : laneAt S (xOf i) (yOf i) = S[i] := by
  simp only [laneAt, xOf_add_yOf, Fin.getElem_fin]

/-- Two states that agree at every column and row are equal. -/
theorem lanes_ext {S T : Lanes} (h : ∀ x y, laneAt S x y = laneAt T x y) : S = T := by
  refine Vector.ext fun i hi => ?_
  have hlane := h (xOf ⟨i, hi⟩) (yOf ⟨i, hi⟩)
  rwa [laneAt_xOf_yOf, laneAt_xOf_yOf] at hlane

/-! ### Theta (R103) -/

theorem laneAt_theta (S : Lanes) (x y : Fin 5) : laneAt (theta S) x y = laneAt S x y ^^^ (thetaD S)[x] := by
  simp [laneAt, theta_getElem]

@[simp] theorem rotl64_of_zero (n : Nat) : rotl64 0#64 n = 0#64 := by
  simp [rotl64, BitVec.rotateLeft_def]

theorem thetaD_eq_zero {S : Lanes} (h : ∀ x : Fin 5, (thetaC S)[x] = 0) (x : Fin 5) : (thetaD S)[x] = 0 := by
  rw [Fin.getElem_fin, thetaD_getElem, h, h]
  simp

/-- R103's corner case. -/
theorem theta_of_parities_zero {S : Lanes} (h : ∀ x : Fin 5, (thetaC S)[x] = 0) : theta S = S :=
  lanes_ext fun x y => by rw [laneAt_theta, thetaD_eq_zero h, xor_zero]

/-- Settles O48: `laneAt_theta`, with the column parities written out. -/
theorem thetaRule : Obligations.ThetaRule := by
  unfold Obligations.ThetaRule
  intro S C
  have hparity : ∀ x : Fin 5, (thetaC S)[x] = C x := fun x => thetaC_getElem S x x.isLt
  refine ⟨fun x y => ?_, fun hzero => theta_of_parities_zero fun x => (hparity x).trans (hzero x)⟩
  calc (theta S)[x.val + 5 * y.val]
      = laneAt S x y ^^^ (thetaD S)[x] := laneAt_theta S x y
    _ = S[x.val + 5 * y.val] ^^^ (C (x + 4) ^^^ (C (x + 1)).rotateLeft 1) := by
      rw [Fin.getElem_fin, thetaD_getElem, hparity, hparity]
      rfl

/-! ### Chi (R106) -/

theorem laneAt_chi (S : Lanes) (x y : Fin 5) :
    laneAt (chi S) x y = laneAt S x y ^^^ (~~~ laneAt S (x + 1) y &&& laneAt S (x + 2) y) := by
  rw [laneAt, chi_getElem, xOf_laneIndex, yOf_laneIndex, ← laneAt]

/-- A row whose lanes are all equal is unchanged by Chi. -/
theorem laneAt_chi_of_constant_row {S : Lanes} {y : Fin 5} {v : Lane} (h : ∀ x, laneAt S x y = v) (x : Fin 5) :
    laneAt (chi S) x y = v := by
  rw [laneAt_chi, h, h, h, BitVec.and_comm, BitVec.and_not_self, xor_zero]

/-- Settles O50: `laneAt_chi`; the all-zero and the all-ones row are constant rows. -/
theorem chiRule : Obligations.ChiRule := by
  unfold Obligations.ChiRule
  intro S y
  exact ⟨fun x => laneAt_chi S x y, fun hzero => laneAt_chi_of_constant_row hzero, fun hones => laneAt_chi_of_constant_row hones⟩

/-! ### Iota and the round constants (R107, R108) -/

theorem iota_getElem (S : Lanes) (rc : Lane) (i : Nat) (h : i < 25) :
    (iota S rc)[i] = if i = 0 then S[0] ^^^ rc else S[i] := by
  simp only [iota, Vector.getElem_set, eq_comm]

/-- The bits that `RC` can set: bit `2^j - 1` for `j = 0..6` (R108). -/
def constantMask : Lane := 0x800000008000808B

theorem roundConstant_and_mask {rc : Lane} (h : rc ∈ roundConstants) : rc &&& constantMask = rc := by
  have htable : (roundConstants.all fun rc => rc &&& constantMask == rc) = true := by decide
  exact beq_iff_eq.mp (List.all_eq_true.mp htable rc h)

theorem constantMask_bits : ∀ b < 64, constantMask.getLsbD b = true → b ∈ [0, 1, 3, 7, 15, 31, 63] := by decide

theorem roundConstants_eq_closedForm : roundConstants = (List.range 24).map rcClosedForm := by decide +kernel

/-- Settles O51: the table against the closed form by evaluation; a bit set in a constant is set in `constantMask`. -/
theorem iotaAndRoundConstants : Obligations.IotaAndRoundConstants := by
  unfold Obligations.IotaAndRoundConstants
  refine ⟨iota_getElem, roundConstants_eq_closedForm, fun rc hrc b hb hbit => constantMask_bits b hb ?_⟩
  rw [← roundConstant_and_mask hrc, BitVec.getLsbD_and, Bool.and_eq_true] at hbit
  exact hbit.2

/-! ### Rho and Pi (R104, R105) -/

/-- The pass leaves a lane that is not among its destinations. -/
theorem foldl_rhoPiStep_getElem_of_notMem {es : List (Fin 25 × Nat)} {j : Fin 25} (hj : j ∉ es.map Prod.fst)
    (p : Lanes × Lane) : (es.foldl rhoPiStep p).1[j] = p.1[j] := by
  induction es generalizing p with
  | nil => rfl
  | cons e es ih =>
    rw [List.map_cons, List.mem_cons, not_or] at hj
    obtain ⟨hhead, htail⟩ := hj
    have hne : e.1.val ≠ j.val := fun h => hhead (Fin.ext h.symm)
    rw [List.foldl_cons, ih htail, (rhoPiStep_spec p e).1, Fin.getElem_fin, Vector.getElem_set_ne _ _ hne, Fin.getElem_fin]

/-- A pass to distinct destinations writes each of them once: what its step carries, rotated. Its first step carries the temporary lane,
each later one the old lane at the destination of the step before (R104). -/
theorem foldl_rhoPiStep_getElem {es : List (Fin 25 × Nat)} (hdistinct : (es.map Prod.fst).Nodup) (A : Lanes) (t : Lane)
    {v : Lane} {e : Fin 25 × Nat} (he : (v, e) ∈ (t :: es.map fun e => A[e.1]).zip es) :
    (es.foldl rhoPiStep (A, t)).1[e.1] = rotl64 v e.2 := by
  induction es generalizing A t with
  | nil => cases he
  | cons d es ih =>
    obtain ⟨hfresh, hrest⟩ := List.nodup_cons.mp hdistinct
    rw [List.foldl_cons]
    rw [List.map_cons, List.zip_cons_cons, List.mem_cons] at he
    rcases he with hhead | htail
    · obtain ⟨rfl, rfl⟩ := Prod.mk.inj hhead
      rw [foldl_rhoPiStep_getElem_of_notMem hfresh]
      exact Vector.getElem_set_self e.1.isLt
    · have hold : (es.map fun e => (A.set d.1 (rotl64 t d.2))[e.1]) = es.map fun e => A[e.1] := by
        refine List.map_congr_left fun e hmem => Vector.getElem_set_ne _ _ fun heq => hfresh ?_
        exact Fin.ext heq ▸ List.mem_map_of_mem hmem
      refine ih hrest (A.set d.1 (rotl64 t d.2)) A[d.1] ?_
      rwa [hold]

/-- The tables of R104 against those of R105: the step that carries lane `i` rotates by `r[i]` and writes to the lane where `i` moves. -/
theorem pass_step_of_lane : ∀ i : Fin 25, i ≠ 0 → (i, (destOf i, rotOf[i])) ∈ (1 :: piln).zip (piln.zip rotc) := by decide

theorem rhoPi_getElem_destOf (S : Lanes) (i : Fin 25) : (rhoPi S)[destOf i] = rotl64 S[i] rotOf[i] := by
  by_cases hi : i = 0
  · subst hi
    have hstays : destOf 0 ∉ (piln.zip rotc).map Prod.fst := by decide
    exact (foldl_rhoPiStep_getElem_of_notMem hstays _).trans (rotl64_zero _).symm
  · have hcarried : (S[1] :: (piln.zip rotc).map fun e => S[e.1]) = ((1 : Fin 25) :: piln).map fun j => S[j] := rfl
    refine foldl_rhoPiStep_getElem (by decide) S S[1] (e := (destOf i, rotOf[i])) ?_
    rw [hcarried, List.zip_map_left]
    exact List.mem_map_of_mem (f := Prod.map (fun j : Fin 25 => S[j]) id) (pass_step_of_lane i hi)

/-- Where lanes move is a permutation of the 25 lanes (R105). -/
theorem destOf_bijective : Function.Bijective destOf := by
  refine Finite.injective_iff_bijective.mp ?_
  unfold Function.Injective
  decide

/-- Two states that agree at every destination are equal. -/
theorem lanes_ext_destOf {S T : Lanes} (h : ∀ i, S[destOf i] = T[destOf i]) : S = T :=
  Vector.ext fun j hj => (destOf_bijective.surjective.forall (p := fun k => S[k] = T[k])).mpr h ⟨j, hj⟩

theorem foldl_set_getElem_of_notMem {d : Fin 25 → Fin 25} {f : Fin 25 → Lane} {l : List (Fin 25)} {j : Fin 25}
    (hj : j ∉ l.map d) (B : Lanes) : (l.foldl (fun B i => B.set (d i) (f i)) B)[j] = B[j] := by
  induction l generalizing B with
  | nil => rfl
  | cons i l ih =>
    rw [List.map_cons, List.mem_cons, not_or] at hj
    obtain ⟨hhead, htail⟩ := hj
    rw [List.foldl_cons, ih htail]
    exact Vector.getElem_set_ne _ _ fun heq => hhead (Fin.ext heq.symm)

theorem rhoPiByLane_getElem_destOf (S : Lanes) (i : Fin 25) : (rhoPiByLane S)[destOf i] = rotl64 S[i] rotOf[i] := by
  obtain ⟨before, after, hsplit⟩ := List.append_of_mem (List.mem_finRange i)
  have hlater : i ∉ after := (List.nodup_cons.mp ((hsplit ▸ List.nodup_finRange 25).of_append_right)).1
  have hfresh : destOf i ∉ after.map destOf := by
    rwa [List.mem_map_of_injective destOf_bijective.injective]
  rw [rhoPiByLane, hsplit, List.foldl_append, List.foldl_cons,
    foldl_set_getElem_of_notMem (f := fun i => rotl64 S[i] rotOf[i]) hfresh]
  exact Vector.getElem_set_self (destOf i).isLt

theorem rhoPi_eq_rhoPiByLane (S : Lanes) : rhoPi S = rhoPiByLane S :=
  lanes_ext_destOf fun i => (rhoPi_getElem_destOf S i).trans (rhoPiByLane_getElem_destOf S i).symm

/-- Settles O49: the two forms write the same lane at every destination, and every lane is one. -/
theorem rhoPiFormsAgree : Obligations.RhoPiFormsAgree := by
  unfold Obligations.RhoPiFormsAgree
  refine fun S => ⟨rhoPi_eq_rhoPiByLane S, fun x y => ?_⟩
  have hmoved := rhoPi_getElem_destOf S ⟨x.val + 5 * y.val, laneIndex_lt x y⟩
  simp only [destOf, xOf_laneIndex, yOf_laneIndex] at hmoved
  exact hmoved

/-! ### The round of the zero state (R102) -/

theorem theta_zero : theta (Vector.replicate 25 0) = Vector.replicate 25 0 :=
  theta_of_parities_zero fun x => by simp [laneAt]

theorem rhoPi_zero : rhoPi (Vector.replicate 25 0) = Vector.replicate 25 0 :=
  lanes_ext_destOf fun i => by rw [rhoPi_getElem_destOf]; simp

theorem chi_zero : chi (Vector.replicate 25 0) = Vector.replicate 25 0 :=
  lanes_ext fun x y => by
    rw [laneAt_chi_of_constant_row (v := 0) fun x => by simp [laneAt]]
    simp [laneAt]

/-- Settles O53: each of the first three steps maps the zero state to itself, and Iota then writes lane 0. -/
theorem roundOrderAndZeroRound : Obligations.RoundOrderAndZeroRound := by
  unfold Obligations.RoundOrderAndZeroRound
  refine ⟨keccakRound_eq, theta_zero, rhoPi_zero, chi_zero, fun rc => ?_⟩
  rw [keccakRound_eq, theta_zero, rhoPi_zero, chi_zero, iota, Vector.getElem_replicate, zero_xor]

end Sys2Proof.Machine
end

section
/-! PROOFS. `KeccakF` is a bijection (spec/40_permutation.md R100): each step of a round is injective on the finite set of states. Chi has
its inverse on a row; Theta is injective because it maps the five column parities injectively. -/

namespace Sys2Proof.Machine

/-! ### Laws of the rotation -/

/-- Bit `b` of a rotation comes from `n` places below it, modulo 64. -/
theorem getLsbD_rotl64 (v : Lane) {n b : Nat} (hn : n < 64) (hb : b < 64) :
    (rotl64 v n).getLsbD b = v.getLsbD ((b + (64 - n)) % 64) := by
  have hback : ((b + (64 - n)) % 64 + n) % 64 = b := by omega
  have hmoved := getLsbD_rotl64_add_mod v hn (b := (b + (64 - n)) % 64) (by omega)
  rwa [hback] at hmoved

theorem rotl64_xor (v w : Lane) {n : Nat} (hn : n < 64) : rotl64 (v ^^^ w) n = rotl64 v n ^^^ rotl64 w n := by
  refine BitVec.eq_of_getLsbD_eq fun b hb => ?_
  simp only [BitVec.getLsbD_xor, getLsbD_rotl64 _ hn hb]

/-- Two rotations by the same amount are one by twice the amount, modulo 64. -/
theorem rotl64_rotl64_same (v : Lane) {n : Nat} (hn : n < 64) : rotl64 (rotl64 v n) n = rotl64 v ((n + n) % 64) := by
  refine BitVec.eq_of_getLsbD_eq fun b hb => ?_
  have hplace : ((b + (64 - n)) % 64 + (64 - n)) % 64 = (b + (64 - (n + n) % 64)) % 64 := by omega
  rw [getLsbD_rotl64 _ hn hb, getLsbD_rotl64 _ hn (by omega), getLsbD_rotl64 _ (by omega) hb, hplace]

theorem rotl64_injective {n : Nat} (hn : n < 64) : Function.Injective (rotl64 · n) := by
  intro v w heq
  refine BitVec.eq_of_getLsbD_eq fun b hb => ?_
  have heq' : rotl64 v n = rotl64 w n := heq
  rw [← getLsbD_rotl64_add_mod v hn hb, heq', getLsbD_rotl64_add_mod w hn hb]

theorem rotOf_lt : ∀ i : Fin 25, rotOf[i] < 64 := by decide

/-! ### Theta is injective -/

/-- Every column parity with two others added, the second rotated. `thetaC_theta` ties it to Theta: this is what Theta makes of the
column parities, for `a = 4`, `b = 1`, `n = 1`. -/
def mixColumns (a b : Fin 5) (n : Nat) (P : Fin 5 → Lane) : Fin 5 → Lane :=
  fun x => P x ^^^ P (x + a) ^^^ rotl64 (P (x + b)) n

theorem lane_xor_left_comm (u v w : Lane) : u ^^^ (v ^^^ w) = v ^^^ (u ^^^ w) := by
  rw [← xor_assoc, xor_comm u v, xor_assoc]

/-- A column holds five lanes, an odd number, so its parity takes up `D[x]` once. -/
theorem thetaC_theta (S : Lanes) :
    (fun x : Fin 5 => (thetaC (theta S))[x]) = mixColumns 4 1 1 fun x => (thetaC S)[x] := by
  funext x
  have hparity : ∀ T : Lanes, (thetaC T)[x] = laneAt T x 0 ^^^ laneAt T x 1 ^^^ laneAt T x 2 ^^^ laneAt T x 3 ^^^ laneAt T x 4 :=
    fun T => thetaC_getElem T x x.isLt
  have hD : (thetaD S)[x] = (thetaC S)[x + 4] ^^^ rotl64 (thetaC S)[x + 1] 1 := thetaD_getElem S x x.isLt
  calc (thetaC (theta S))[x] = (thetaC S)[x] ^^^ (thetaD S)[x] := by
        rw [hparity, hparity]
        simp only [laneAt_theta]
        simp [xor_assoc]
    _ = mixColumns 4 1 1 (fun x => (thetaC S)[x]) x := by rw [hD, ← xor_assoc, mixColumns]

/-- The mixed terms cancel: mixing twice doubles the offsets and the rotation. -/
theorem mixColumns_mixColumns (a b : Fin 5) {n : Nat} (hn : n < 64) (P : Fin 5 → Lane) :
    mixColumns a b n (mixColumns a b n P) = mixColumns (a + a) (b + b) ((n + n) % 64) P := by
  funext x
  simp only [mixColumns, rotl64_xor _ _ hn, rotl64_rotl64_same _ hn, add_assoc, add_comm b a]
  simp [xor_assoc, lane_xor_left_comm]

theorem mixColumns_injective_of_double {a b : Fin 5} {n : Nat} (hn : n < 64)
    (h : Function.Injective (mixColumns (a + a) (b + b) ((n + n) % 64))) : Function.Injective (mixColumns a b n) := by
  intro P Q heq
  apply h
  rw [← mixColumns_mixColumns a b hn, heq, mixColumns_mixColumns a b hn]

/-- Without a rotation, the columns next to each are undone by those two away. -/
theorem mixColumns_unrotated_injective : Function.Injective (mixColumns 1 4 0) := by
  refine Function.LeftInverse.injective (g := mixColumns 2 3 0) fun P => funext fun x => ?_
  simp only [mixColumns, rotl64_zero, add_assoc, Fin.reduceAdd]
  simp [xor_assoc, lane_xor_left_comm]

/-- Doubled six times, the rotation by 1 is one by 64, which is none. -/
theorem mixColumns_theta_injective : Function.Injective (mixColumns 4 1 1) := by
  have h32 : Function.Injective (mixColumns 3 2 32) := mixColumns_injective_of_double (by decide) mixColumns_unrotated_injective
  have h16 : Function.Injective (mixColumns 4 1 16) := mixColumns_injective_of_double (by decide) h32
  have h8 : Function.Injective (mixColumns 2 3 8) := mixColumns_injective_of_double (by decide) h16
  have h4 : Function.Injective (mixColumns 1 4 4) := mixColumns_injective_of_double (by decide) h8
  have h2 : Function.Injective (mixColumns 3 2 2) := mixColumns_injective_of_double (by decide) h4
  exact mixColumns_injective_of_double (by decide) h2

theorem theta_injective : Function.Injective theta := by
  intro S T heq
  have hparity : (fun x : Fin 5 => (thetaC S)[x]) = fun x => (thetaC T)[x] :=
    mixColumns_theta_injective (by rw [← thetaC_theta, ← thetaC_theta, heq])
  have hD : ∀ x : Fin 5, (thetaD S)[x] = (thetaD T)[x] := fun x => by
    rw [Fin.getElem_fin, thetaD_getElem, congrFun hparity, congrFun hparity, ← thetaD_getElem, ← Fin.getElem_fin]
  refine lanes_ext fun x y => (BitVec.xor_left_inj (thetaD S)[x]).mp ?_
  calc laneAt S x y ^^^ (thetaD S)[x] = laneAt (theta T) x y := by rw [← laneAt_theta, heq]
    _ = laneAt T x y ^^^ (thetaD S)[x] := by rw [laneAt_theta, hD]

/-! ### The other steps, the round and the permutation -/

theorem rhoPi_injective : Function.Injective rhoPi := by
  intro S T heq
  refine Vector.ext fun i hi => rotl64_injective (rotOf_lt ⟨i, hi⟩) ?_
  calc rotl64 S[i] rotOf[i] = (rhoPi S)[destOf ⟨i, hi⟩] := (rhoPi_getElem_destOf S ⟨i, hi⟩).symm
    _ = (rhoPi T)[destOf ⟨i, hi⟩] := by rw [heq]
    _ = rotl64 T[i] rotOf[i] := rhoPi_getElem_destOf T ⟨i, hi⟩

/-- One lane of Chi, on the lane and the two after it; `laneAt_chi` ties it to Chi. -/
def chiLane (u v w : Lane) : Lane := u ^^^ (~~~ v &&& w)

/-- The truth table of `chiLane_inverse`. -/
theorem chiBit_inverse : ∀ a b c d e : Bool,
    ((a ^^ (!b && c)) ^^ (!(b ^^ (!c && d)) && ((c ^^ (!d && e)) ^^ (!(d ^^ (!e && a)) && (e ^^ (!a && b)))))) = a := by decide

/-- Chi can be undone on a row: lane `a` before Chi, from the five lanes Chi makes of the row `a, b, c, d, e`. -/
theorem chiLane_inverse (a b c d e : Lane) :
    chiLane (chiLane a b c) (chiLane b c d) (chiLane (chiLane c d e) (chiLane d e a) (chiLane e a b)) = a := by
  refine BitVec.eq_of_getLsbD_eq fun i hi => ?_
  simp only [chiLane, BitVec.getLsbD_xor, BitVec.getLsbD_and, BitVec.getLsbD_not, hi, decide_true, Bool.true_and]
  exact chiBit_inverse _ _ _ _ _

theorem laneAt_eq_of_chi (S : Lanes) (x y : Fin 5) :
    laneAt S x y = chiLane (laneAt (chi S) x y) (laneAt (chi S) (x + 1) y)
      (chiLane (laneAt (chi S) (x + 2) y) (laneAt (chi S) (x + 3) y) (laneAt (chi S) (x + 4) y)) := by
  have hrow : ∀ x, laneAt (chi S) x y = chiLane (laneAt S x y) (laneAt S (x + 1) y) (laneAt S (x + 2) y) :=
    fun x => laneAt_chi S x y
  simp only [hrow, add_assoc, Fin.reduceAdd, add_zero, chiLane_inverse]

theorem chi_injective : Function.Injective chi := fun S T heq =>
  lanes_ext fun x y => by rw [laneAt_eq_of_chi S, laneAt_eq_of_chi T, heq]

/-- Iota with the same constant undoes itself. -/
theorem iota_involutive (rc : Lane) : Function.Involutive (iota · rc) := by
  refine fun S => Vector.ext fun i hi => ?_
  by_cases hlane : i = 0
  · subst hlane
    simp [iota_getElem]
  · simp [iota_getElem, hlane]

theorem keccakRound_injective (rc : Lane) : Function.Injective (keccakRound · rc) := by
  intro S T heq
  have hiota : iota (chi (rhoPi (theta S))) rc = iota (chi (rhoPi (theta T))) rc := heq
  exact theta_injective (rhoPi_injective (chi_injective ((iota_involutive rc).injective hiota)))

theorem foldl_keccakRound_injective (rcs : List Lane) : Function.Injective (rcs.foldl keccakRound) := by
  induction rcs with
  | nil => exact Function.injective_id
  | cons rc rcs ih => exact ih.comp (keccakRound_injective rc)

theorem lanes_finite : Finite Lanes :=
  Finite.of_injective (fun (S : Lanes) (i : Fin 25) => S[i]) fun _ _ heq => Vector.ext fun i hi => congrFun heq ⟨i, hi⟩

theorem keccakF_injective : Function.Injective keccakF := by
  intro S T heq
  rw [keccakF_eq, keccakF_eq] at heq
  exact foldl_keccakRound_injective roundConstants heq

theorem roundConstants_eq_map_getD : roundConstants = (List.range 24).map fun ir => roundConstants.getD ir 0 := rfl

/-- Settles O47: an injective function on a finite set is a bijection; the rounds in order are the fold over the table. -/
theorem keccakFIsBijection : Obligations.KeccakFIsBijection := by
  unfold Obligations.KeccakFIsBijection
  have hfinite : Finite Lanes := lanes_finite
  refine ⟨Finite.injective_iff_bijective.mp keccakF_injective, fun S => ?_⟩
  calc keccakF S = roundConstants.foldl keccakRound S := keccakF_eq S
    _ = ((List.range 24).map fun ir => roundConstants.getD ir 0).foldl keccakRound S := by rw [← roundConstants_eq_map_getD]
    _ = (List.range 24).foldl (fun A ir => keccakRound A (roundConstants.getD ir 0)) S := List.foldl_map

end Sys2Proof.Machine
end

section
/-! PROOFS. INIT, one byte of the message, and ABSORB (spec/41_absorb.md R130 to R132), and how many permutations the bytes run (R135). -/

namespace Sys2Proof.Machine

/-! ### INIT and ABSORB (R130, R132) -/

/-- Settles O12: R202's table has no code for INIT in any phase, so it has its effect, which writes constants. -/
theorem initResult : Obligations.InitResult := fun _ => exec_of_legality_none rfl rfl

/-- A count of 9 to 15 is no ABSORB, whatever the phase. -/
theorem exec_absorb_of_count_gt {n : BitVec 4} (hn : 8 < n.toNat) (din : Lane) (s : State) :
    exec (.absorb n din) s = .next (cmdError .illegalCmd s) :=
  if_neg fun hlegal => absurd (absorbCountLegal_iff.mp hlegal) (by omega)

theorem exec_absorb_of_phase_error {n : BitVec 4} (hn : n.toNat ≤ 8) (din : Lane) {s : State} {p : Phase} {k : ErrCode}
    (hphase : s.phase = p) (hcode : legality (.absorb n din) p = some k) :
    exec (.absorb n din) s = .next (cmdError k s) :=
  exec_of_legality_some (absorbCountLegal_iff.mpr hn) (hphase ▸ hcode)

/-- Settles O14: the count decides whether R202's table is asked, and in ABSORBING that table says ok. -/
theorem absorbResult : Obligations.AbsorbResult := by
  unfold Obligations.AbsorbResult
  intro n din s
  exact ⟨fun hn hphase => exec_absorb_of_absorbing hn din hphase, fun hn hphase => exec_absorb_of_phase_error hn din hphase rfl,
    fun hn hphase => exec_absorb_of_phase_error hn din hphase rfl, fun hn => exec_absorb_of_count_gt hn din s⟩

/-! ### One byte (R131) -/

/-- The byte comes where the partial lane is still clear, so R131's XOR sets what OR would (R28). -/
theorem savedWith_eq_or {c : HashContext} (hclear : c.SavedClear) (b : Byte) :
    savedWith c b = c.savedWord ||| (zext64 b <<< (8 * c.byteIndex.val)) := by
  refine BitVec.eq_of_getLsbD_eq fun i _ => ?_
  rw [savedWith, BitVec.getLsbD_xor, BitVec.getLsbD_or]
  rcases Nat.lt_or_ge i (8 * c.byteIndex.val) with hbelow | habove
  · simp [hbelow]
  · rw [hclear.getLsbD habove, Bool.false_xor, Bool.false_or]

/-- Settles O13, by the place of the byte: inside the lane, at the end of a lane, or at the end of the 17th. -/
theorem absorbByteRule : Obligations.AbsorbByteRule := by
  unfold Obligations.AbsorbByteRule
  intro c b w S'
  refine ⟨fun hinside => ?_, fun hlast hword => ?_, fun hlast hword => ?_, fun hclear => savedWith_eq_or hclear b⟩
  · have hopen : c.byteIndex ≠ 7 := Fin.ne_of_val_ne hinside.ne
    exact ⟨c.byteIndex + 1, val_byteIndex_succ hopen, absorbByte_stores c b hopen⟩
  · have hopen : c.wordIndex ≠ 16 := Fin.ne_of_val_ne hword.ne
    have hnext : (c.wordIndex + 1).val = c.wordIndex.val + 1 := by
      rw [Fin.val_add_one]
      exact if_neg hopen
    exact ⟨c.wordIndex + 1, hnext, (absorbByte_completes c b (Fin.ext hlast)).trans (completeLane_next c _ hopen)⟩
  · exact (absorbByte_completes c b (Fin.ext hlast)).trans (completeLane_last c _ (Fin.ext hword))

/-! ### The permutations of a byte string (R135) -/

/-- The byte that fills the block is the one at its last place. -/
theorem fillsBlock_iff {c : HashContext} : fillsBlock c = true ↔ c.blockPosition = 135 := by
  rw [fillsBlock, decide_eq_true_iff, Fin.ext_iff, Fin.ext_iff]
  change c.byteIndex.val = 7 ∧ c.wordIndex.val = 16 ↔ 8 * c.wordIndex.val + c.byteIndex.val = 135
  omega

/-- One permutation for every 136 bytes, counted from the start of the block in progress. -/
theorem permutationsIn_eq_div (c : HashContext) (bs : List Byte) :
    permutationsIn c bs = (c.blockPosition + bs.length) / 136 := by
  induction bs generalizing c with
  | nil => exact (Nat.div_eq_of_lt c.blockPosition_lt).symm
  | cons b bs ih =>
    have hplace := c.blockPosition_lt
    rw [permutationsIn, ih, blockPosition_absorbByte, List.length_cons]
    simp only [fillsBlock_iff]
    split_ifs <;> omega

/-- Settles O17: a place in the block and 8 bytes more reach the end of one block at most. -/
theorem absorbRunsAtMostOnePermutation : Obligations.AbsorbRunsAtMostOnePermutation := by
  unfold Obligations.AbsorbRunsAtMostOnePermutation
  intro c n din hn
  have hplace := c.blockPosition_lt
  rw [permutationsIn_eq_div, dataBytes_length]
  omega

end Sys2Proof.Machine
end

section
/-! PROOFS. The source's absorb procedure, lane by lane, against `AbsorbByte` over the bytes (spec/41_absorb.md R133). -/

namespace Sys2Proof.Machine

/-! ### Bytes packed into a lane -/

/-- The low bytes of a lane, as these bytes packed again. -/
theorem packLane_dataBytes (v : Lane) {n : Nat} (hn : n ≤ 8) : packLane (dataBytes v n) = lowBytes v n := by
  induction n with
  | zero => rw [dataBytes_zero, packLane_nil, lowBytes_zero]
  | succ n ih => rw [dataBytes_succ, packLane_append_singleton, ih (by omega), dataBytes_length, lowBytes_succ v (by omega)]

/-- Up to 8 bytes fill no more of a lane than their own places. -/
theorem lowBytes_packLane {bs : List Byte} (h : bs.length ≤ 8) : lowBytes (packLane bs) bs.length = packLane bs := by
  rw [← packLane_dataBytes _ h, dataBytes_packLane h]

/-! ### The steps of the procedure -/

/-- Steps 1 and 4: bytes that do not fill the lane. -/
theorem absorbBytes_eq_storePartial {c : HashContext} {bs : List Byte} (h : c.byteIndex.val + bs.length < 8) :
    absorbBytes c bs = storePartial c bs := by
  have hfits : bs.length ≤ 8 := by omega
  have hbytes := absorbBytes_of_stores c (packLane bs) h
  rw [dataBytes_packLane hfits, lowBytes_packLane hfits] at hbytes
  rw [hbytes]
  exact HashContext.eq_of_fields rfl rfl (Fin.ext (Nat.mod_eq_of_lt h).symm) rfl

/-- Step 2: exactly the bytes that the lane in progress still needs. -/
theorem absorbBytes_eq_completeLane {c : HashContext} {bs : List Byte} (h : c.byteIndex.val + bs.length = 8) :
    absorbBytes c bs = completeLane c (c.savedWord ^^^ (packLane bs <<< (8 * c.byteIndex.val))) := by
  have hfits : bs.length ≤ 8 := by omega
  have hrest : 8 - c.byteIndex.val = bs.length := by omega
  have hbytes := absorbBytes_of_completes c (packLane bs) hfits h.ge
  rw [hrest, lowBytes_ushiftRight_eq_zero _ hfits, dataBytes_packLane hfits, lowBytes_packLane hfits] at hbytes
  rw [hbytes]
  refine HashContext.eq_of_fields rfl rfl ?_ (completeLane_savedWord _ _).symm
  rw [completeLane_byteIndex]
  exact Fin.ext (show c.byteIndex.val + bs.length - 8 = 0 by omega)

/-- Step 3 on one group: 8 bytes into an empty lane. -/
theorem absorbBytes_eq_completeLane_of_group {c : HashContext} (hbyte : c.byteIndex = 0) (hsaved : c.savedWord = 0) {bs : List Byte}
    (h : bs.length = 8) : absorbBytes c bs = completeLane c (packLane bs) := by
  rw [absorbBytes_eq_completeLane (by rw [hbyte, h]; rfl), hsaved, hbyte]
  simp

/-- Steps 3 and 4, by induction on the number of full groups. -/
theorem absorbWhole_eq_absorbBytes {c : HashContext} (hbyte : c.byteIndex = 0) (hsaved : c.savedWord = 0) (bs : List Byte) :
    absorbWhole c bs = absorbBytes c bs := by
  unfold absorbWhole
  induction hk : bs.length / 8 generalizing c bs with
  | zero =>
    have hshort : c.byteIndex.val + bs.length < 8 := by
      rw [hbyte, Fin.val_zero]
      omega
    exact (absorbBytes_eq_storePartial hshort).symm
  | succ k ih =>
    have hgroup : (bs.take 8).length = 8 := by
      rw [List.length_take]
      omega
    have hrest : (bs.drop 8).length / 8 = k := by
      rw [List.length_drop]
      omega
    rw [absorbGroups, ih (completeLane_byteIndex _ _) (completeLane_savedWord _ _) _ hrest,
      ← absorbBytes_eq_completeLane_of_group hbyte hsaved hgroup, ← absorbBytes_append, List.take_append_drop]

/-- Settles O18: without a partial lane by `absorbWhole_eq_absorbBytes`; with one, the data stays inside it, or the bytes that complete
it come first and the whole groups follow on an empty lane. -/
theorem sourceAbsorbIsByteAbsorb : Obligations.SourceAbsorbIsByteAbsorb := by
  unfold Obligations.SourceAbsorbIsByteAbsorb
  intro c data hclear
  unfold absorbSource
  split_ifs with hbyte hshort
  · have hsaved : c.savedWord = 0 := by simpa [HashContext.SavedClear, hbyte] using hclear
    exact absorbWhole_eq_absorbBytes hbyte hsaved data
  · exact (absorbBytes_eq_storePartial (by omega)).symm
  · have hfill : c.byteIndex.val + (data.take (8 - c.byteIndex.val)).length = 8 := by
      rw [List.length_take]
      omega
    rw [absorbWhole_eq_absorbBytes (completeLane_byteIndex _ _) (completeLane_savedWord _ _), ← absorbBytes_eq_completeLane hfill,
      ← absorbBytes_append, List.take_append_drop]

end Sys2Proof.Machine
end

section
/-! PROOFS. A run inside a message (spec/41_absorb.md R132, R134, R135; spec/60_exceptions.md R204): between an INIT and a FINALIZE the
context is that of the bytes the ABSORBs carried. -/

namespace Sys2Proof.Machine

/-! ### Runs of commands (R236) -/

theorem runCommands_cons_state {c : Command} {s t : State} (h : acceptCommand c (s.withHost []) = .next t) (cs : List Command) :
    (runCommands (c :: cs) s).2 = (runCommands cs t).2 := by
  have hstep : step (s.withHost [.command c]) = .next t := h
  rw [runCommands, commandEvents_cons, runEvents_cons hstep]
  rfl

theorem runCommands_append_state (cs ds : List Command) (s : State) :
    (runCommands (cs ++ ds) s).2 = (runCommands ds (runCommands cs s).2).2 := by
  rw [runCommands, commandEvents_append, runEvents_append]
  rfl

/-! ### Commands inside a message -/

theorem startsOrEnds_eq_false_iff {c : Command} :
    startsOrEnds c = false ↔ decode c ≠ .ok .init ∧ decode c ≠ .ok .finalize := by
  rw [startsOrEnds, decide_eq_false_iff_not, not_or]

/-- An ABSORB or a RDSTAT is neither INIT nor FINALIZE. -/
theorem startsOrEnds_of_absorbsOrReads {c : Command} (h : absorbsOrReads c = true) : startsOrEnds c = false := by
  rw [startsOrEnds_eq_false_iff]
  constructor <;> intro hdec <;> simp [absorbsOrReads, hdec] at h

theorem absorbsOrReads_of_absorbs {c : Command} (h : absorbs c = true) : absorbsOrReads c = true := by
  unfold absorbs at h
  split at h
  · next hdec => simp [absorbsOrReads, hdec]
  · cases h

theorem commandBytes_of_rejected {c : Command} {r : Reject} (h : decode c = .error r) : commandBytes c = [] := by
  simp [commandBytes, h]

/-- In ABSORBING only illegal words and RDDIG err (R202), and they carry no bytes. -/
theorem commandBytes_of_commandError_absorbing {c : Command} {k : ErrCode} (h : commandError c .absorbing = some k) :
    commandBytes c = [] := by
  rcases hdec : decode c with r | i
  · exact commandBytes_of_rejected hdec
  · rw [commandError_of_decode hdec] at h
    rw [commandBytes_of_decode hdec]
    cases i with
    | absorb n din => cases h
    | init => rfl
    | finalize => rfl
    | rddig k => rfl
    | rdstat => rfl

/-- An instruction that neither starts nor ends a message absorbs the bytes it carries and leaves the phase. -/
theorem effect_inside_message {i : Instr} (hinit : i ≠ .init) (hfinal : i ≠ .finalize) (s : State) :
    (effect i s).phase = s.phase ∧ (effect i s).ctx = absorbBytes s.ctx (Instr.bytes i) := by
  cases i with
  | init => exact absurd rfl hinit
  | absorb n din => exact ⟨rfl, rfl⟩
  | finalize => exact absurd rfl hfinal
  | rddig k => exact ⟨rfl, rfl⟩
  | rdstat => exact ⟨rfl, rfl⟩

/-- A command inside a message, whether it errs or runs. -/
theorem acceptCommand_inside_message {c : Command} (hc : startsOrEnds c = false) {s : State} (hphase : s.phase = .absorbing) :
    ∃ t, acceptCommand c s = .next t ∧ t.phase = .absorbing ∧ t.ctx = absorbBytes s.ctx (commandBytes c) := by
  rcases command_errs_or_runs c s.phase with ⟨k, hk⟩ | ⟨i, hdec, hrun⟩
  · refine ⟨_, acceptCommand_of_commandError hk, hphase, ?_⟩
    rw [hphase] at hk
    rw [commandBytes_of_commandError_absorbing hk, absorbBytes_nil, cmdError_ctx]
  · obtain ⟨hinit, hfinal⟩ := startsOrEnds_eq_false_iff.mp hc
    obtain ⟨hkeeps, hctx⟩ := effect_inside_message (i := i) (fun hi => hinit (hi ▸ hdec)) (fun hi => hfinal (hi ▸ hdec)) s
    exact ⟨_, acceptCommand_of_legality_none hdec hrun, hkeeps.trans hphase, hctx.trans (by rw [commandBytes_of_decode hdec])⟩

theorem runCommands_inside_message {cs : List Command} (hcs : ∀ c ∈ cs, startsOrEnds c = false) {s : State}
    (hphase : s.phase = .absorbing) :
    (runCommands cs s).2.phase = .absorbing ∧ (runCommands cs s).2.ctx = absorbBytes s.ctx (messageOf cs) := by
  induction cs generalizing s with
  | nil => exact ⟨hphase, rfl⟩
  | cons c cs ih =>
    obtain ⟨hc, hrest⟩ := List.forall_mem_cons.mp hcs
    obtain ⟨t, haccept, htphase, htctx⟩ := acceptCommand_inside_message hc (s := s.withHost []) hphase
    rw [runCommands_cons_state haccept, messageOf_cons, absorbBytes_append]
    exact State.withHost_ctx s [] ▸ htctx ▸ ih hrest htphase

/-! ### INIT, the message, FINALIZE -/

/-- After INIT and the commands inside the message, from every state: the context of the message's bytes. -/
theorem runCommands_init_message {cs : List Command} (hcs : ∀ c ∈ cs, startsOrEnds c = false) (s : State) :
    (runCommands ([encode .init] ++ cs) s).2.phase = .absorbing ∧
      (runCommands ([encode .init] ++ cs) s).2.ctx = absorbBytes HashContext.zero (messageOf cs) := by
  have haccept : acceptCommand (encode .init) (s.withHost []) = .next (effect .init (s.withHost [])) :=
    acceptCommand_of_legality_none (decodeEncodeRoundTrip .init rfl) rfl
  rw [List.singleton_append, runCommands_cons_state haccept]
  exact runCommands_inside_message hcs rfl

/-- FINALIZE after them pads and permutes that context. -/
theorem runCommands_init_message_finalize {cs : List Command} (hcs : ∀ c ∈ cs, startsOrEnds c = false) (s : State) :
    (runCommands ([encode .init] ++ cs ++ [encode .finalize]) s).2.phase = .finalized ∧
      (runCommands ([encode .init] ++ cs ++ [encode .finalize]) s).2.ctx =
        finalizeContext (absorbBytes HashContext.zero (messageOf cs)) := by
  obtain ⟨hphase, hctx⟩ := runCommands_init_message hcs s
  rw [runCommands_append_state]
  generalize (runCommands ([encode .init] ++ cs) s).2 = u at hphase hctx
  have haccept : acceptCommand (encode .finalize) (u.withHost []) = .next (effect .finalize (u.withHost [])) :=
    acceptCommand_of_legality_none (decodeEncodeRoundTrip .finalize rfl) (legality_finalize_eq_none.mpr hphase)
  rw [runCommands_cons_state haccept, ← hctx]
  exact ⟨rfl, rfl⟩

/-- Settles O19: both runs end in the context of the bytes carried, which are the same. -/
theorem chunkingInvariance : Obligations.ChunkingInvariance := by
  unfold Obligations.ChunkingInvariance
  intro s s' cs cs' hcs hcs' hmessage
  have hinside : ∀ c ∈ cs, startsOrEnds c = false := fun c hc => startsOrEnds_of_absorbsOrReads (hcs c hc)
  have hinside' : ∀ c ∈ cs', startsOrEnds c = false := fun c hc => startsOrEnds_of_absorbsOrReads (hcs' c hc)
  obtain ⟨-, hctx⟩ := runCommands_init_message hinside s
  obtain ⟨-, hctx'⟩ := runCommands_init_message hinside' s'
  obtain ⟨-, hdigest⟩ := runCommands_init_message_finalize hinside s
  obtain ⟨-, hdigest'⟩ := runCommands_init_message_finalize hinside' s'
  exact ⟨by rw [hctx, hctx', hmessage], by rw [hdigest, hdigest', hmessage]⟩

/-! ### The bookkeeping (R135) -/

/-- A message of whole lanes leaves no partial lane; else the bytes after the last whole lane are in it. -/
theorem savedWord_absorbBytes {c : HashContext} (hstart : c.blockPosition = 0) (hsaved : c.savedWord = 0) (m : List Byte) :
    (absorbBytes c m).savedWord = packLane (m.drop (m.length - m.length % 8)) := by
  induction m using List.reverseRecOn with
  | nil => exact hsaved
  | append_singleton m b ih =>
    have hplace : (absorbBytes c m).byteIndex.val = m.length % 8 := by
      rw [HashContext.byteIndex_val, blockPosition_absorbBytes, hstart]
      omega
    rw [absorbBytes_append, absorbBytes_cons, absorbBytes_nil, List.length_append, List.length_singleton]
    by_cases hlast : (absorbBytes c m).byteIndex = 7
    · have hwhole : (m.length + 1) % 8 = 0 := by
        rw [hlast] at hplace
        change 7 = m.length % 8 at hplace
        omega
      rw [absorbByte_completes _ _ hlast, completeLane_savedWord, hwhole, List.drop_of_length_le (by simp), packLane_nil]
    · have hopen : m.length % 8 ≠ 7 := fun h => hlast (Fin.ext (hplace.trans h))
      have hcut : m.length + 1 - (m.length + 1) % 8 = m.length - m.length % 8 := by omega
      have htail : (m.drop (m.length - m.length % 8)).length = m.length % 8 := by
        rw [List.length_drop]
        omega
      rw [absorbByte_stores _ _ hlast, hcut, List.drop_append_of_le_length (by omega), packLane_append_singleton, ← ih, htail, ← hplace]
      rfl

/-- Settles O20: INIT and the ABSORBs leave the context of their bytes; its indices are the place in the block, counted from 0. -/
theorem bookkeepingFollowsLength : Obligations.BookkeepingFollowsLength := by
  unfold Obligations.BookkeepingFollowsLength
  intro s cs hcs m t
  have hinside : ∀ c ∈ cs, startsOrEnds c = false := fun c hc => startsOrEnds_of_absorbsOrReads (absorbsOrReads_of_absorbs (hcs c hc))
  obtain ⟨-, hctx⟩ : t.phase = .absorbing ∧ t.ctx = absorbBytes HashContext.zero m := runCommands_init_message hinside s
  have hzero : HashContext.zero.blockPosition = 0 := rfl
  have hplace : t.ctx.blockPosition = m.length % 136 := by rw [hctx, blockPosition_absorbBytes, hzero, Nat.zero_add]
  refine ⟨?_, ?_, ?_, ?_⟩
  · rw [HashContext.wordIndex_val, hplace]
  · rw [HashContext.byteIndex_val, hplace]
    omega
  · rw [hctx]
    exact savedWord_absorbBytes hzero rfl m
  · rw [permutationsIn_eq_div, hzero, Nat.zero_add]

end Sys2Proof.Machine
end

section
/-! PROOFS. Padding and the plain sponge (spec/42_finalize.md R160 to R162, R166): FINALIZE on the context of a message is the sponge's last
block. -/

namespace Sys2Proof.Machine

/-! ### The padding (R161) -/

/-- The padding fills the last block. -/
theorem padding_length {q : Nat} (hq : q < 136) : (padding q).length = 136 - q := by
  unfold padding
  split_ifs with hlast
  · subst hlast
    rfl
  · simp only [List.length_cons, List.length_append, List.length_replicate, List.length_nil]
    omega

theorem padMessage_length (m : List Byte) : (padMessage m).length = 136 * (m.length / 136 + 1) := by
  have hpadding : (padding (m.length % 136)).length = 136 - m.length % 136 := padding_length (by omega)
  have hlength : (padMessage m).length = m.length + (padding (m.length % 136)).length := List.length_append
  omega

/-! ### The padding in the block -/

/-- Zero bytes of the padding leave the block. -/
theorem xorBlock_append_zeros (S : Lanes) (bs : List Byte) {k : Nat} (h : bs.length + k ≤ 136) :
    xorBlock S (bs ++ List.replicate k 0) = xorBlock S bs := by
  induction k with
  | zero => rw [List.replicate_zero, List.append_nil]
  | succ k ih =>
    have hlength : (bs ++ List.replicate k 0).length = bs.length + k := by rw [List.length_append, List.length_replicate]
    have hword : (bs ++ List.replicate k 0).length / 8 < 17 := by omega
    have hbyte : zext64 0 <<< (8 * ((bs ++ List.replicate k 0).length % 8)) = 0 := BitVec.zero_shiftLeft _
    rw [List.replicate_succ', ← List.append_assoc, xorBlock_append_singleton S 0 (w := ⟨_, hword⟩) rfl, hbyte, xorLane_zero,
      ih (by omega)]

/-- The last byte of a block is the top byte of lane 16. -/
theorem xorBlock_append_last (S : Lanes) {bs : List Byte} (h : bs.length = 135) (b : Byte) :
    xorBlock S (bs ++ [b]) = xorLane (xorBlock S bs) 16 (zext64 b <<< 56) := by
  rw [xorBlock_append_singleton S b (w := 16) (by rw [h]; rfl), h]
  rfl

/-- R161: the two padding XORs put `padding` behind the bytes of the block in progress. -/
theorem padLanes_eq_xorBlock {c : HashContext} {S : Lanes} {bs : List Byte} (hS : c.eager.S = xorBlock S bs)
    (hpos : c.blockPosition = bs.length) : padLanes c = xorBlock S (bs ++ padding bs.length) := by
  have hplace := c.blockPosition_lt
  have hfirst : xorLane c.eager.S (rateLane c.wordIndex) (1 <<< (8 * c.byteIndex.val)) = xorBlock S (bs ++ [0x01]) :=
    xorLane_eq_xorBlock_append hS hpos 0x01
  have hpad : padLanes c = xorLane (xorBlock S (bs ++ [0x01])) 16 0x8000000000000000 := by
    rw [← hfirst, HashContext.eager, xorLane_xorLane]
    rfl
  rw [hpad]
  unfold padding
  split_ifs with hlast
  · rw [xorBlock_append_last S hlast, xorBlock_append_last S hlast, xorLane_xorLane]
    rfl
  · have hlength : (bs ++ [0x01] ++ List.replicate (134 - bs.length) 0x00).length = 135 := by
      rw [List.length_append, List.length_append, List.length_replicate, List.length_singleton]
      omega
    have hzeros : (bs ++ [0x01]).length + (134 - bs.length) ≤ 136 := by
      rw [List.length_append, List.length_singleton]
      omega
    have hsplit : bs ++ (0x01 :: (List.replicate (134 - bs.length) 0x00 ++ [0x80])) =
        bs ++ [0x01] ++ List.replicate (134 - bs.length) 0x00 ++ [0x80] := by simp
    rw [hsplit, xorBlock_append_last S hlength, xorBlock_append_zeros S _ hzeros]
    rfl

/-- The lanes FINALIZE permutes after a message are those of the sponge's last block (R161). -/
theorem padLanes_absorbBytes_zero (m : List Byte) :
    padLanes (absorbBytes HashContext.zero m) =
      xorBlock (spongeBlocks (m.length / 136) HashContext.zero.S m)
        (m.drop (136 * (m.length / 136)) ++ padding (m.length % 136)) := by
  have hzero : HashContext.zero.eager = HashContext.zero := HashContext.eager_of_savedWord_zero rfl
  have hS := eager_S_absorbBytes (c := HashContext.zero) rfl m
  rw [hzero] at hS
  have htail : (m.drop (136 * (m.length / 136))).length = m.length % 136 := by
    rw [List.length_drop]
    omega
  have hpos : (absorbBytes HashContext.zero m).blockPosition = (m.drop (136 * (m.length / 136))).length := by
    rw [blockPosition_absorbBytes, htail]
    exact congrArg (· % 136) (Nat.zero_add m.length)
  rw [padLanes_eq_xorBlock hS hpos, htail]

/-! ### The sponge over the padded message -/

/-- The sponge over whole blocks of `m` and one last block, which ends with `p`. -/
theorem spongeBlocks_append_last (k : Nat) (S : Lanes) {m p : List Byte} (hm : 136 * k ≤ m.length)
    (hlast : (m.drop (136 * k) ++ p).length = 136) :
    spongeBlocks (k + 1) S (m ++ p) = keccakF (xorBlock (spongeBlocks k S m) (m.drop (136 * k) ++ p)) := by
  induction k generalizing S m with
  | zero =>
    have hblock : (m ++ p).take 136 = m ++ p := List.take_of_length_le hlast.le
    exact congrArg (fun block => keccakF (xorBlock S block)) hblock
  | succ k ih =>
    have hcut : (m.drop 136).drop (136 * k) = m.drop (136 * (k + 1)) := by
      rw [List.drop_drop, Nat.mul_succ, Nat.add_comm 136]
    have hrest : 136 * k ≤ (m.drop 136).length := by
      rw [List.length_drop]
      omega
    calc spongeBlocks (k + 1 + 1) S (m ++ p)
        = spongeBlocks (k + 1) (keccakF (xorBlock S ((m ++ p).take 136))) ((m ++ p).drop 136) := rfl
      _ = spongeBlocks (k + 1) (keccakF (xorBlock S (m.take 136))) (m.drop 136 ++ p) := by
          rw [List.take_append_of_le_length (by omega), List.drop_append_of_le_length (by omega)]
      _ = keccakF (xorBlock (spongeBlocks k (keccakF (xorBlock S (m.take 136))) (m.drop 136)) (m.drop (136 * (k + 1)) ++ p)) := by
          rw [ih _ hrest (hcut ▸ hlast), hcut]
      _ = keccakF (xorBlock (spongeBlocks (k + 1) S m) (m.drop (136 * (k + 1)) ++ p)) := rfl

/-- FINALIZE after a message leaves its Keccak-256 digest in lanes 0 to 3 (R54, R166). -/
theorem digestOf_finalizeContext (m : List Byte) :
    digestOf (finalizeContext (absorbBytes HashContext.zero m)).S = keccak256 m := by
  have hblocks : (padMessage m).length / 136 = m.length / 136 + 1 := by
    rw [padMessage_length]
    omega
  have hlast : (m.drop (136 * (m.length / 136)) ++ padding (m.length % 136)).length = 136 := by
    rw [List.length_append, List.length_drop, padding_length (by omega)]
    omega
  calc digestOf (finalizeContext (absorbBytes HashContext.zero m)).S
      = digestOf (spongeBlocks (m.length / 136 + 1) HashContext.zero.S (padMessage m)) := by
        rw [finalizeContext_S, padLanes_absorbBytes_zero, ← spongeBlocks_append_last _ _ (by omega) hlast]
        rfl
    _ = keccak256 m := by rw [← hblocks]; rfl

/-- Settles O26: the run ends in the context of the bytes carried, padded and permuted, and that is the plain sponge's last block. -/
theorem hashIsKeccak256 : Obligations.HashIsKeccak256 := by
  unfold Obligations.HashIsKeccak256
  intro s body hbody t
  obtain ⟨hphase, hctx⟩ := runCommands_init_message_finalize hbody s
  exact ⟨hphase, (congrArg (fun c : HashContext => digestOf c.S) hctx).trans (digestOf_finalizeContext (messageOf body))⟩

end Sys2Proof.Machine
end

section
/-! PROOFS. FINALIZE and RDDIG, phase by phase (spec/42_finalize.md R160, R163, R164), and the bytes of the digest (R54). -/

namespace Sys2Proof.Machine

/-! ### FINALIZE (R160) -/

/-- A phase in which R202's table has a code for an instruction: the command error with that code. -/
theorem exec_of_phase_error {i : Instr} (hwf : i.wf = true) {s : State} {p : Phase} {k : ErrCode} (hphase : s.phase = p)
    (hcode : legality i p = some k) : exec i s = .next (cmdError k s) :=
  exec_of_legality_some hwf (hphase ▸ hcode)

/-- Settles O23: in ABSORBING R202's table says ok, and the rule's first XOR of `savedWord` and the 1 bit is one XOR of the two. -/
theorem finalizeResult : Obligations.FinalizeResult := by
  unfold Obligations.FinalizeResult
  intro s
  refine ⟨?_, fun hphase => exec_of_phase_error rfl hphase rfl, fun hphase => exec_of_phase_error rfl hphase rfl⟩
  intro hphase S1 S2
  have hS1 : S1 = xorLane s.ctx.S (rateLane s.ctx.wordIndex) (s.ctx.savedWord ^^^ (1 <<< (8 * s.ctx.byteIndex.val))) :=
    congrArg (s.ctx.S.set s.ctx.wordIndex.val · (by omega)) (BitVec.xor_assoc _ _ _)
  have hpad : S2 = padLanes s.ctx := congrArg (xorLane · 16 0x8000000000000000) hS1
  rw [exec_finalize_of_absorbing hphase, hpad]
  rfl

/-! ### RDDIG (R163, R54) -/

theorem digestIndex_cases : ∀ k : BitVec 2, k = 0 ∨ k = 1 ∨ k = 2 ∨ k = 3 := by decide

/-- Digest bytes `8k` to `8k+7` are those of lane `k`. -/
theorem digestOf_lane (S : Lanes) (k : BitVec 2) : ((digestOf S).drop (8 * k.toNat)).take 8 = laneBytes (digestLane S k) := by
  rcases digestIndex_cases k with rfl | rfl | rfl | rfl
  · rfl
  · rfl
  · rfl
  · rfl

theorem digestOf_getElem? (S : Lanes) (k : BitVec 2) {j : Nat} (hj : j < 8) :
    (digestOf S)[8 * k.toNat + j]? = some (byteOf (digestLane S k) j) := by
  have hbyte : j < (laneBytes (digestLane S k)).length := (laneBytes_length _).symm ▸ hj
  calc (digestOf S)[8 * k.toNat + j]?
      = (((digestOf S).drop (8 * k.toNat)).take 8)[j]? := by rw [List.getElem?_take_of_lt hj, List.getElem?_drop]
    _ = some (byteOf (digestLane S k) j) := by
        rw [digestOf_lane, List.getElem?_eq_getElem hbyte]
        exact congrArg some (dataBytes_getElem _ 8 j hbyte)

/-- Settles O28: in FINALIZED R202's table says ok, and the bytes of the lane answered stand in the digest (`digestOf_getElem?`). -/
theorem rddigResult : Obligations.RddigResult := by
  unfold Obligations.RddigResult
  intro k s
  exact ⟨fun hphase => exec_rddig_of_finalized k hphase, fun _ hj => digestOf_getElem? s.ctx.S k hj,
    fun hphase => exec_of_phase_error rfl hphase rfl, fun hphase => exec_of_phase_error rfl hphase rfl⟩

/-! ### FINALIZED (R164) -/

/-- In FINALIZED only INIT and the reads run (R202), and a read writes the response alone. -/
theorem effect_of_finalized {i : Instr} {s : State} (hphase : s.phase = .finalized) (hrun : legality i s.phase = none)
    (hinit : i ≠ .init) : (effect i s).ctx = s.ctx ∧ (effect i s).phase = .finalized := by
  cases i with
  | init => exact absurd rfl hinit
  | absorb n din => exact absurd (hphase.symm.trans (legality_absorb_eq_none.mp hrun)) (by decide)
  | finalize => exact absurd (hphase.symm.trans (legality_finalize_eq_none.mp hrun)) (by decide)
  | rddig k => exact ⟨rfl, hphase⟩
  | rdstat => exact ⟨rfl, hphase⟩

/-- Settles O29: waiting and errors leave the context and the phase, and so do the commands that run (`effect_of_finalized`). -/
theorem digestStableUntilInitOrReset : Obligations.DigestStableUntilInitOrReset := by
  unfold Obligations.DigestStableUntilInitOrReset
  intro s t hphase hstep hreset hduring hinit
  rcases step_outcomes hstep with rfl | ⟨rest, k, -, rfl⟩ | ⟨c, rest, i, hhost, hdec, hrun, rfl⟩ |
    ⟨⟨rest, hhost⟩ | ⟨c, rest, hhost⟩, -⟩
  · exact ⟨rfl, hphase⟩
  · exact ⟨rfl, hphase⟩
  · obtain ⟨hctx, hkeeps⟩ := effect_of_finalized (s := s.withHost rest) hphase hrun fun hi => hinit c rest hhost (hi ▸ hdec)
    exact ⟨congrArg HashContext.S hctx, hkeeps⟩
  · exact absurd hhost (hreset rest)
  · exact absurd hhost (hduring c rest)

end Sys2Proof.Machine
end

section
/-! PROOFS. The two padding XORs (spec/42_finalize.md R160 to R162): where each falls, and the padded message they make. -/

namespace Sys2Proof.Machine

/-! ### The two pad values -/

/-- The first pad bit is bit 0 of its byte, the second bit 7 of its own. -/
theorem padBits_disjoint : ∀ b : Fin 8, (1 <<< (8 * b.val) : Lane) &&& 0x8000000000000000 = 0 := by decide

theorem byteOf_firstPadBit_ne_zero : ∀ b : Fin 8, ∀ j < 8, byteOf (1 <<< (8 * b.val)) j ≠ 0 ↔ j = b.val := by decide

theorem byteOf_secondPadBit_ne_zero : ∀ j < 8, byteOf 0x8000000000000000 j ≠ 0 ↔ j = 7 := by decide

theorem padBits_share_byte_iff (b : Fin 8) :
    (∃ j : Nat, j < 8 ∧ byteOf (1 <<< (8 * b.val)) j ≠ 0 ∧ byteOf 0x8000000000000000 j ≠ 0) ↔ b.val = 7 := by
  constructor
  · rintro ⟨j, hj, hfirst, hsecond⟩
    exact ((byteOf_firstPadBit_ne_zero b j hj).mp hfirst).symm.trans ((byteOf_secondPadBit_ne_zero j hj).mp hsecond)
  · intro hb
    exact ⟨7, by omega, (byteOf_firstPadBit_ne_zero b 7 (by omega)).mpr hb.symm,
      (byteOf_secondPadBit_ne_zero 7 (by omega)).mpr rfl⟩

/-! ### The padded lanes -/

theorem padLanes_getElem_16_of_word {c : HashContext} (hword : c.wordIndex.val = 16) :
    (padLanes c)[16] = c.S[16] ^^^ c.savedWord ^^^ (1 <<< (8 * c.byteIndex.val)) ^^^ 0x8000000000000000 := by
  rw [padLanes_getElem, if_pos hword, if_pos rfl, ← BitVec.xor_assoc c.S[16]]

theorem padLanes_getElem_16_of_ne {c : HashContext} (hword : c.wordIndex.val ≠ 16) :
    (padLanes c)[16] = c.S[16] ^^^ 0x8000000000000000 := by
  rw [padLanes_getElem, if_neg hword, if_pos rfl]

theorem padLanes_getElem_word_of_ne {c : HashContext} (hword : c.wordIndex.val ≠ 16) :
    (padLanes c)[c.wordIndex.val] = c.S[c.wordIndex.val] ^^^ c.savedWord ^^^ (1 <<< (8 * c.byteIndex.val)) := by
  rw [padLanes_getElem, if_pos rfl, if_neg hword, ← BitVec.xor_assoc c.S[c.wordIndex.val]]
  exact BitVec.xor_zero

theorem padLanes_getElem_other {c : HashContext} {i : Nat} (hi : i < 25) (hlast : i ≠ 16) (hword : i ≠ c.wordIndex.val) :
    (padLanes c)[i] = c.S[i] := by
  rw [padLanes_getElem, if_neg hword.symm, if_neg hlast]
  exact BitVec.xor_zero

theorem byteOf_xor (v w : Lane) (j : Nat) : byteOf (v ^^^ w) j = byteOf v j ^^^ byteOf w j := BitVec.extractLsb'_xor

/-- The top byte of a partial lane is clear, as the byte that fills it completes the lane (R28, R131). -/
theorem byteOf_savedWord_seven {c : HashContext} (hclear : c.SavedClear) : byteOf c.savedWord 7 = 0 := by
  refine BitVec.eq_of_getLsbD_eq fun i hi => ?_
  rw [byteOf_getLsbD _ _ _ hi, hclear.getLsbD (by omega)]
  exact BitVec.getLsbD_zero.symm

/-- Both pad bits in one byte make it 0x81 (R162). -/
theorem byteOf_padLanes_of_both {c : HashContext} (hword : c.wordIndex.val = 16) (hbyte : c.byteIndex.val = 7)
    (hclear : c.SavedClear) : byteOf (padLanes c)[16] 7 = byteOf c.S[16] 7 ^^^ 0x81 := by
  have hbits : byteOf (1 <<< 56) 7 ^^^ byteOf 0x8000000000000000 7 = 0x81 := by decide
  rw [padLanes_getElem_16_of_word hword, hbyte, byteOf_xor, byteOf_xor, byteOf_xor, byteOf_savedWord_seven hclear, BitVec.xor_assoc, hbits]
  exact congrArg (· ^^^ 0x81) BitVec.xor_zero

/-- Settles O24: the pad values bit by bit and byte by byte, and the padded lanes by the lane `wordIndex` names. -/
theorem paddingXorsNeverCancel : Obligations.PaddingXorsNeverCancel := by
  unfold Obligations.PaddingXorsNeverCancel
  intro c first second
  exact ⟨padBits_disjoint c.byteIndex, padBits_share_byte_iff c.byteIndex, padLanes_getElem_16_of_word,
    fun hword => ⟨padLanes_getElem_word_of_ne hword, padLanes_getElem_16_of_ne hword⟩,
    fun _ hi hlast hword => padLanes_getElem_other hi hlast hword, byteOf_padLanes_of_both⟩

/-! ### The padded message (R161) -/

/-- Settles O25: the lanes by `padLanes_absorbBytes_zero`, the lengths by `padding_length` and `padMessage_length`. -/
theorem paddingIsPad10Star1 : Obligations.PaddingIsPad10Star1 := by
  unfold Obligations.PaddingIsPad10Star1
  intro m
  have hq : m.length % 136 < 136 := Nat.mod_lt _ (by decide)
  refine ⟨padLanes_absorbBytes_zero m, padding_length hq, ?_⟩
  rw [padMessage_length, Nat.mul_mod_right]

end Sys2Proof.Machine
end

section
/-! PROOFS. The one-shot hash as the host sees it (spec/42_finalize.md R165, R166): its responses and its permutations. -/

namespace Sys2Proof.Machine

/-! ### Responses of a run (R236) -/

theorem runCommands_cons_responses {c : Command} {s t : State} (h : acceptCommand c (s.withHost []) = .next t) (cs : List Command) :
    (runCommands (c :: cs) s).1 = t.rsp.toList ++ (runCommands cs t).1 := by
  have hstep : step (s.withHost [.command c]) = .next t := h
  rw [runCommands, commandEvents_cons, runEvents_cons hstep]
  rfl

theorem runCommands_append_responses (cs ds : List Command) (s : State) :
    (runCommands (cs ++ ds) s).1 = (runCommands cs s).1 ++ (runCommands ds (runCommands cs s).2).1 := by
  rw [runCommands, commandEvents_append, runEvents_append]
  rfl

/-- What an instruction answers does not depend on what the host issues after it. -/
theorem doutOf_withHost (i : Instr) (s : State) (h : List HostEvent) : doutOf i (s.withHost h) = doutOf i s := by
  cases i <;> rfl

/-- A command the encoder wrote, in a phase in which it runs: it answers `doutOf`, and the run goes on from its effect. -/
theorem runCommands_encode_cons_responses {i : Instr} (hwf : i.wf = true) {s : State} (hrun : legality i s.phase = none)
    (cs : List Command) :
    (runCommands (encode i :: cs) s).1 = ⟨false, doutOf i s⟩ :: (runCommands cs (effect i (s.withHost []))).1 := by
  have haccept : acceptCommand (encode i) (s.withHost []) = .next (effect i (s.withHost [])) :=
    acceptCommand_of_legality_none (decodeEncodeRoundTrip i hwf) hrun
  rw [runCommands_cons_responses haccept, effect_rsp, doutOf_withHost]
  rfl

theorem absorbs_iff {c : Command} : absorbs c = true ↔ ∃ n din, decode c = .ok (.absorb n din) := by
  unfold absorbs
  split
  · next hdec => simp [hdec]
  · next hother => exact iff_of_false nofun fun ⟨n, din, hdec⟩ => hother n din hdec

theorem runCommands_absorbs_responses {cs : List Command} (hcs : ∀ c ∈ cs, absorbs c = true) {s : State}
    (hphase : s.phase = .absorbing) : (runCommands cs s).1 = List.replicate cs.length ⟨false, 0⟩ := by
  induction cs generalizing s with
  | nil => rfl
  | cons c cs ih =>
    obtain ⟨hc, hrest⟩ := List.forall_mem_cons.mp hcs
    obtain ⟨n, din, hdec⟩ := absorbs_iff.mp hc
    have haccept : acceptCommand c (s.withHost []) = .next (effect (.absorb n din) (s.withHost [])) :=
      acceptCommand_of_legality_none hdec (legality_absorb_eq_none.mpr hphase)
    rw [runCommands_cons_responses haccept, ih hrest (s := effect (.absorb n din) (s.withHost [])) hphase]
    rfl

theorem runCommands_rddigs_responses (ks : List (BitVec 2)) {s : State} (hphase : s.phase = .finalized) :
    (runCommands (ks.map fun k => encode (.rddig k)) s).1 = ks.map fun k => ⟨false, digestLane s.ctx.S k⟩ := by
  induction ks generalizing s with
  | nil => rfl
  | cons k ks ih =>
    rw [List.map_cons, runCommands_encode_cons_responses rfl (legality_rddig_eq_none.mpr hphase),
      ih (s := effect (.rddig k) (s.withHost [])) hphase]
    rfl

/-! ### The responses of the one-shot hash (R166) -/

theorem startsOrEnds_of_absorbs {cs : List Command} (hcs : ∀ c ∈ cs, absorbs c = true) : ∀ c ∈ cs, startsOrEnds c = false :=
  fun c hc => startsOrEnds_of_absorbsOrReads (absorbsOrReads_of_absorbs (hcs c hc))

/-- INIT, the ABSORBs and FINALIZE each answer (0, 0). -/
theorem runCommands_init_absorbs_finalize_responses {cs : List Command} (hcs : ∀ c ∈ cs, absorbs c = true) (s : State) :
    (runCommands ([encode .init] ++ cs ++ [encode .finalize]) s).1 = List.replicate (cs.length + 2) ⟨false, 0⟩ := by
  obtain ⟨hphase, -⟩ := runCommands_init_message (startsOrEnds_of_absorbs hcs) s
  have hinit : (runCommands ([encode .init] ++ cs) s).1 = List.replicate (cs.length + 1) ⟨false, 0⟩ := by
    rw [List.singleton_append, runCommands_encode_cons_responses rfl rfl,
      runCommands_absorbs_responses hcs (s := effect .init (s.withHost [])) rfl]
    rfl
  rw [runCommands_append_responses, hinit, runCommands_encode_cons_responses rfl (legality_finalize_eq_none.mpr hphase)]
  exact List.replicate_succ'.symm

/-- All the responses: zeros, and then the lanes of the digest. -/
theorem oneShotHash_responses {cs : List Command} (hcs : ∀ c ∈ cs, absorbs c = true) (s : State) (ks : List (BitVec 2)) :
    (runCommands ([encode .init] ++ cs ++ encode .finalize :: ks.map fun k => encode (.rddig k)) s).1 =
      List.replicate (cs.length + 2) ⟨false, 0⟩ ++
        ks.map fun k => ⟨false, digestLane (finalizeContext (absorbBytes HashContext.zero (messageOf cs))).S k⟩ := by
  obtain ⟨hphase, hctx⟩ := runCommands_init_message_finalize (startsOrEnds_of_absorbs hcs) s
  rw [List.append_cons, runCommands_append_responses, runCommands_init_absorbs_finalize_responses hcs,
    runCommands_rddigs_responses ks hphase, hctx]

/-- The four digest lanes, low byte first, are the digest (R54). -/
theorem digestOf_eq_flatMap (S : Lanes) :
    ([0, 1, 2, 3] : List (BitVec 2)).flatMap (fun k => laneBytes (digestLane S k)) = digestOf S := by
  simp [digestOf, digestLane]

/-- Settles O27: the responses are those of `oneShotHash_responses`, and the lanes they end with are the sponge's digest. -/
theorem oneShotHashResponses : Obligations.OneShotHashResponses := by
  unfold Obligations.OneShotHashResponses
  intro s body hbody rs
  have hrs : rs = _ := oneShotHash_responses hbody s [0, 1, 2, 3]
  have hlength : (List.replicate (body.length + 2) (⟨false, 0⟩ : Response)).length = body.length + 2 := List.length_replicate
  rw [hrs, List.take_left' hlength, List.drop_left' hlength]
  refine ⟨?_, ?_, fun r hr => ?_, ?_⟩
  · simp [wellBehaved]
  · simp
  · rw [List.eq_of_mem_replicate hr]
  · rw [List.flatMap_map, digestOf_eq_flatMap]
    exact digestOf_finalizeContext (messageOf body)

/-! ### The permutations of the one-shot hash (R165) -/

theorem runPermutations_cons {c : Command} {s t : State} (h : acceptCommand c (s.withHost []) = .next t) (cs : List Command) :
    runPermutations (c :: cs) s = commandPermutations c s + runPermutations cs t := by
  rw [runPermutations, runCommands_cons_state h]
  rfl

theorem runPermutations_append (cs ds : List Command) (s : State) :
    runPermutations (cs ++ ds) s = runPermutations cs s + runPermutations ds (runCommands cs s).2 := by
  induction cs generalizing s with
  | nil => exact (Nat.zero_add _).symm
  | cons c cs ih =>
    obtain ⟨t, haccept⟩ := exists_acceptCommand_eq_next c (s.withHost [])
    rw [List.cons_append, runPermutations_cons haccept, runPermutations_cons haccept, ih, runCommands_cons_state haccept,
      Nat.add_assoc]

/-- A command inside a message runs the permutations of the bytes it carries. -/
theorem commandPermutations_inside_message {c : Command} (hc : startsOrEnds c = false) {s : State} (hphase : s.phase = .absorbing) :
    commandPermutations c s = permutationsIn s.ctx (commandBytes c) := by
  rcases command_errs_or_runs c s.phase with ⟨k, hk⟩ | ⟨i, hdec, hrun⟩
  · rw [commandPermutations_of_commandError hk, commandBytes_of_commandError_absorbing (hphase ▸ hk)]
    rfl
  · rw [commandPermutations_of_legality_none hdec hrun, commandBytes_of_decode hdec]
    cases i with
    | finalize => exact absurd hdec (startsOrEnds_eq_false_iff.mp hc).2
    | init => rfl
    | absorb n din => rfl
    | rddig k => rfl
    | rdstat => rfl

theorem runPermutations_inside_message {cs : List Command} (hcs : ∀ c ∈ cs, startsOrEnds c = false) {s : State}
    (hphase : s.phase = .absorbing) : runPermutations cs s = permutationsIn s.ctx (messageOf cs) := by
  induction cs generalizing s with
  | nil => rfl
  | cons c cs ih =>
    obtain ⟨hc, hrest⟩ := List.forall_mem_cons.mp hcs
    obtain ⟨t, haccept, htphase, htctx⟩ := acceptCommand_inside_message hc (s := s.withHost []) hphase
    rw [runPermutations_cons haccept, messageOf_cons, permutationsIn_append, ih hrest htphase, htctx,
      commandPermutations_inside_message hc hphase, State.withHost_ctx]

/-- The permutations of a command the encoder wrote, in a phase in which it runs. -/
theorem runPermutations_encode_cons {i : Instr} (hwf : i.wf = true) {s : State} (hrun : legality i s.phase = none)
    (cs : List Command) :
    runPermutations (encode i :: cs) s = effectPermutations i s.ctx + runPermutations cs (effect i (s.withHost [])) := by
  have hdec := decodeEncodeRoundTrip i hwf
  rw [runPermutations_cons (acceptCommand_of_legality_none hdec hrun), commandPermutations_of_legality_none hdec hrun]

/-- INIT runs no permutation, and the commands inside the message those of its bytes from the zero context. -/
theorem runPermutations_init_message {cs : List Command} (hcs : ∀ c ∈ cs, startsOrEnds c = false) (s : State) :
    runPermutations ([encode .init] ++ cs) s = permutationsIn HashContext.zero (messageOf cs) :=
  calc runPermutations ([encode .init] ++ cs) s
      = 0 + runPermutations cs (effect .init (s.withHost [])) := runPermutations_encode_cons (i := .init) rfl rfl cs
    _ = runPermutations cs (effect .init (s.withHost [])) := Nat.zero_add _
    _ = permutationsIn HashContext.zero (messageOf cs) := runPermutations_inside_message hcs rfl

/-- Settles O45: the permutations of the bytes carried, one for every full block, and the one of FINALIZE. -/
theorem hashRunsPermutationsLinearInLength : Obligations.HashRunsPermutationsLinearInLength := by
  unfold Obligations.HashRunsPermutationsLinearInLength
  intro s body hbody
  have hinside := startsOrEnds_of_absorbs hbody
  obtain ⟨hphase, -⟩ := runCommands_init_message hinside s
  have hzero : HashContext.zero.blockPosition = 0 := rfl
  rw [runPermutations_append, runPermutations_init_message hinside, permutationsIn_eq_div, hzero, Nat.zero_add,
    runPermutations_encode_cons rfl (legality_finalize_eq_none.mpr hphase)]
  rfl

end Sys2Proof.Machine
end

section
/-! PROOFS. RDSTAT (spec/43_status.md R180): R202's table has no code for it in any phase, and its effect is the response alone. -/

namespace Sys2Proof.Machine

/-- Settles O31: R202's table says ok to RDSTAT whatever the phase, and what then runs is its effect, a response with the status word. -/
theorem rdstatResult : Obligations.RdstatResult := by
  unfold Obligations.RdstatResult
  intro s
  have hlegal : legality .rdstat s.phase = none := rfl
  calc exec .rdstat s
      = .next (effect .rdstat s) := exec_of_legality_none rfl hlegal
    _ = .next { s with rsp := some ⟨false, statusWord s⟩ } := rfl

end Sys2Proof.Machine
end

section
/-! PROOFS. Command errors (spec/60_exceptions.md R200 to R205): which commands err, what an error leaves, and the model's own record
of the first one (93 U1, log entry 4). -/

namespace Sys2Proof.Machine

/-! ### The core never stops (R200) -/

/-- Settles O40: `exists_step_eq_next`, by the host's next event. -/
theorem everyStepAnswersNext : Obligations.EveryStepAnswersNext := exists_step_eq_next

/-! ### Which commands err (R202, R203) -/

/-- Settles O34: the table of R202 is `commandError`, which an illegal word does not reach; a command that runs has its `effect`. -/
theorem legalityTableHolds : Obligations.LegalityTableHolds := by
  unfold Obligations.LegalityTableHolds
  intro c s
  refine ⟨fun hillegal => ?_, fun i hdec => ⟨fun code hcode => ?_, fun hrun => ?_⟩⟩
  · obtain ⟨r, hrejected⟩ := decode_of_not_legal hillegal
    exact acceptCommand_rejected hrejected s
  · exact acceptCommand_of_commandError ((commandError_of_decode hdec _).trans hcode)
  · exact ⟨_, _, acceptCommand_of_legality_none hdec hrun, effect_rsp i s, fun hi => effect_err_of_ne_init hi s⟩

/-! ### What an error leaves (R204, R205) -/

theorem State.errCodeAfter_of_no_error {s : State} (h : s.err = false) (k : ErrCode) : s.errCodeAfter k = k :=
  if_neg (by simp [h])

theorem State.errCodeAfter_of_error {s : State} (h : s.err = true) (k : ErrCode) : s.errCodeAfter k = s.errCode := if_pos h

theorem State.faultAfter_eq_or (s : State) (k : ErrCode) :
    s.faultAfter k = s.faultRecord.or (some (.contractViolation k)) := by
  rw [State.faultAfter]
  cases s.faultRecord <;> rfl

theorem cmdError_eq (k : ErrCode) (s : State) :
    cmdError k s =
      { s with
        err := true
        errCode := if s.err = false then k else s.errCode
        faultRecord := s.faultRecord.or (some (.contractViolation k))
        rsp := some ⟨true, 0⟩ } := by
  have hcode : s.errCodeAfter k = if s.err = false then k else s.errCode := by
    rcases herr : s.err
    · exact State.errCodeAfter_of_no_error herr k
    · exact State.errCodeAfter_of_error herr k
  exact State.eq_of_fields rfl rfl rfl hcode rfl (s.faultAfter_eq_or k) rfl

/-- `RSP_ERR` is 1 only after a command error, since a command that runs answers 0. -/
theorem eq_cmdError_of_erring_response {s t : State} {c : Command} {rest : List HostEvent} {d : Lane}
    (hhost : s.host = .command c :: rest) (hstep : step s = .next t) (hrsp : t.rsp = some ⟨true, d⟩) :
    ∃ k, k ≠ .none ∧ t = cmdError k (s.withHost rest) := by
  have haccept : acceptCommand c (s.withHost rest) = .next t := (hostStep_command hhost).symm.trans hstep
  rcases acceptCommand_cases haccept with ⟨k, hk, ht⟩ | ⟨i, -, -, rfl⟩
  · exact ⟨k, ne_none_of_commandError hk, ht⟩
  · rw [effect_rsp] at hrsp
    cases hrsp

/-- Settles O35: a step that answers an error is a command error (`eq_cmdError_of_erring_response`), which keeps the first code. -/
theorem cmdErrorEffect : Obligations.CmdErrorEffect := by
  unfold Obligations.CmdErrorEffect
  refine ⟨cmdError_eq, fun s t c rest d hhost hstep hrsp => ?_⟩
  obtain ⟨k, hk, rfl⟩ := eq_cmdError_of_erring_response hhost hstep hrsp
  rw [cmdError_rsp] at hrsp
  cases hrsp
  refine ⟨rfl, rfl, rfl, rfl, fun herr => ?_, fun herr => State.errCodeAfter_of_error herr k⟩
  exact (State.errCodeAfter_of_no_error (s := s.withHost rest) herr k).trans_ne hk

/-! ### The model's own record (93 U1, log entry 4) -/

theorem State.faultAfter_ne_none (s : State) (k : ErrCode) : s.faultAfter k ≠ none := by
  simp [State.faultAfter_eq_or]

theorem State.faultAfter_of_recorded {s : State} {f : Fault} (h : s.faultRecord = some f) (k : ErrCode) :
    s.faultAfter k = some f := by
  simp [State.faultAfter_eq_or, h]

@[simp] theorem effect_faultRecord (i : Instr) (s : State) : (effect i s).faultRecord = s.faultRecord := by
  cases i <;> rfl

/-- An instruction that runs leaves no error that did not stand before. -/
theorem err_of_effect_err {i : Instr} {s : State} (h : (effect i s).err = true) : s.err = true := by
  by_cases hi : i = .init
  · subst hi
    cases h
  · exact (effect_err_of_ne_init hi s).left.symm.trans h

theorem step_keeps_faultRecord {s t : State} {f : Fault} (hstep : step s = .next t) (hf : s.faultRecord = some f) :
    t.faultRecord = some f := by
  rcases step_outcomes hstep with rfl | ⟨rest, k, -, rfl⟩ | ⟨c, rest, i, -, -, -, rfl⟩ | ⟨-, rest, rfl⟩
  · exact hf
  · exact State.faultAfter_of_recorded (s := s.withHost rest) hf k
  · exact (effect_faultRecord i _).trans hf
  · exact hf

theorem step_keeps_faultRecorded {s t : State} (hstep : step s = .next t) (hrecorded : s.FaultRecorded) : t.FaultRecorded := by
  intro herr
  rcases step_outcomes hstep with rfl | ⟨rest, k, -, rfl⟩ | ⟨c, rest, i, -, -, -, rfl⟩ | ⟨-, rest, rfl⟩
  · exact hrecorded herr
  · exact State.faultAfter_ne_none _ k
  · rw [effect_faultRecord]
    exact hrecorded (err_of_effect_err (s := s.withHost rest) herr)
  · cases herr

/-- Settles O43: only a command error writes the record, and only an empty one (`State.faultAfter`). -/
theorem faultRecordIsNeverLost : Obligations.FaultRecordIsNeverLost := by
  unfold Obligations.FaultRecordIsNeverLost
  intro s t hstep
  refine ⟨fun f hf => step_keeps_faultRecord hstep hf, fun c rest d hhost hrsp => ?_, step_keeps_faultRecorded hstep⟩
  obtain ⟨k, -, rfl⟩ := eq_cmdError_of_erring_response hhost hstep hrsp
  exact State.faultAfter_ne_none _ k

/-! ### The code STATUS shows (R201) -/

theorem extractLsb'_statusWord_errCode (s : State) : (statusWord s).extractLsb' 16 3 = s.errCode.code := by
  obtain ⟨hfields, -⟩ := statusWordLayout
  obtain ⟨-, -, -, -, -, hcode, -⟩ := hfields s
  exact hcode

/-- From a state without an error, `errCode` is what the command raises, NONE if it raises nothing. -/
theorem errCode_of_acceptCommand {c : Command} {s t : State} (herr : s.err = false) (hnone : s.errCode = .none)
    (h : acceptCommand c s = .next t) : t.errCode = (commandError c s.phase).getD .none := by
  rcases acceptCommand_cases h with ⟨k, hk, rfl⟩ | ⟨i, hdec, hrun, rfl⟩
  · rw [hk]
    exact State.errCodeAfter_of_no_error herr k
  · rw [commandError_of_decode hdec, hrun]
    by_cases hi : i = .init
    · subst hi
      rfl
    · exact (effect_err_of_ne_init hi s).right.trans hnone

theorem eq_of_acceptCommand_err {c : Command} {s t : State} (herr : s.err = false) (h : acceptCommand c s = .next t)
    (ht : t.err = true) :
    t = { s with err := true, errCode := t.errCode, rsp := some ⟨true, 0⟩, faultRecord := t.faultRecord } := by
  rcases acceptCommand_cases h with ⟨k, -, rfl⟩ | ⟨i, -, -, rfl⟩
  · rfl
  · rw [err_of_effect_err ht] at herr
    cases herr

theorem errCode_of_acceptCommand_of_error {c : Command} {s t : State} (herr : s.err = true) (hinit : decode c ≠ .ok .init)
    (h : acceptCommand c s = .next t) : t.errCode = s.errCode := by
  rcases acceptCommand_cases h with ⟨k, -, rfl⟩ | ⟨i, hdec, -, rfl⟩
  · exact State.errCodeAfter_of_error herr k
  · exact (effect_err_of_ne_init (fun hi => hinit (hi ▸ hdec)) s).right

theorem ErrCode.code_le_five (k : ErrCode) : k.code.toNat ≤ 5 := by
  cases k <;> decide

/-- Settles O54: the code shown is that of `commandError`, read off R202's table command by command and phase by phase. -/
theorem errorCodesFollowTheTable : Obligations.ErrorCodesFollowTheTable := by
  unfold Obligations.ErrorCodesFollowTheTable
  refine ⟨fun c s t herr hnone h => ⟨?_, eq_of_acceptCommand_err herr h⟩, fun c s t herr hinit h => ?_, ErrCode.code_le_five⟩
  · rw [extractLsb'_statusWord_errCode, errCode_of_acceptCommand herr hnone h]
    rcases hdec : decode c with r | i
    · rw [commandError_of_rejected hdec]
      rfl
    · rw [commandError_of_decode hdec]
      cases i with
      | init => rfl
      | absorb n din => cases s.phase <;> rfl
      | finalize => cases s.phase <;> rfl
      | rddig k => cases s.phase <;> rfl
      | rdstat => rfl
  · rw [extractLsb'_statusWord_errCode, extractLsb'_statusWord_errCode, errCode_of_acceptCommand_of_error herr hinit h]

end Sys2Proof.Machine
end

section
/-! PROOFS. Reset against INIT (spec/70_reset_and_hazards.md R231): the phase tells them apart, and IDLE is the phase in which R202's
table asks for INIT. -/

namespace Sys2Proof.Machine

/-- The column IDLE of R202's table: every command but INIT and RDSTAT needs an INIT before it. -/
theorem legality_idle {i : Instr} (hinit : i ≠ .init) (hstat : i ≠ .rdstat) : legality i .idle = some .notInitialized := by
  cases i with
  | init => exact absurd rfl hinit
  | absorb n din => rfl
  | finalize => rfl
  | rddig k => rfl
  | rdstat => exact absurd rfl hstat

/-- INIT clears what a reset event clears, and each keeps the model's own two fields (log entries 4 and 5). -/
theorem effect_init_eq_resetEvent (s : State) : { effect .init s with phase := .idle, rsp := none } = resetEvent s := rfl

/-- Settles O11: INIT runs in every phase, and its effect is a reset event's but for the phase and the response; the phase of a reset
event is IDLE, whose column of R202's table has the error. -/
theorem resetAndInitDifferOnlyInPhase : Obligations.ResetAndInitDifferOnlyInPhase := by
  unfold Obligations.ResetAndInitDifferOnlyInPhase
  intro s
  refine ⟨⟨effect .init s, exec_of_legality_none rfl rfl, rfl, resetEvent_phase s, effect_init_eq_resetEvent s⟩, ?_⟩
  intro i hwf hinit hstat
  exact exec_of_phase_error hwf (resetEvent_phase s) (legality_idle hinit hstat)

end Sys2Proof.Machine
end
